-- ==== Sys2Proof/Word.lean ====
section
/-! DEFINITION. The names of the two units, and the words of the hardware: septets, octets, the block position, and the 9-bit token
`(end, data[7:0])` that all four ports carry (00 R6, R9; 30 R60). -/

namespace Sys2Proof

/-- The two units (00 R1). -/
inductive UnitId where
  /-- `septet_packer`. -/
  | sp
  /-- `septet_unpacker`. -/
  | su
  deriving DecidableEq, Repr

/-- The unit at the other end of a wired connection (60 R150). -/
def UnitId.peer : UnitId → UnitId
  | .sp => .su
  | .su => .sp

/-- An 8-bit value: an octet, or a septet in its byte container (20 R45, R48). -/
abbrev Byte := BitVec 8

/-- A 7-bit value, 0 to 127 (00 R5). -/
abbrev Septet := BitVec 7

/-- The 3-bit block position (10 R21). -/
abbrev Phase := BitVec 3

/-- A token as the number `end * 256 + data` (30 R60). -/
abbrev TokenWord := BitVec 9

/-- One transfer on a port: the end-of-sequence bit and the data byte (30 R60). -/
structure Token where
  isEnd : Bool
  data  : Byte
  deriving DecidableEq, Repr

/-- A data token, `end = 0`: `OCT d` on SP's output, `SEP d` on SU's (30 R63). -/
def Token.ofData (d : Byte) : Token := ⟨false, d⟩

/-- The END token a unit emits: `end = 1`, `data = 0x00` (30 R63, R68). -/
def Token.fin : Token := ⟨true, 0#8⟩

end Sys2Proof
end

