-- ==== Sys2Proof/Config.lean ====
section
/-! DEFINITION. What is fixed when the hardware is built (00 R5, 10 R25), how its ports are wired (60 R150),
and the values the spec leaves open. -/

namespace Sys2Proof

/-- `RANGE_POLICY`: what SP does with a data byte whose bit 7 is 1 (00 R5, 40 R88). -/
inductive RangePolicy where
  | fault
  | mask
  | raw
  deriving DecidableEq, Repr

/-- The build of one SP and one SU. State carries it and no step changes it (log 2, log 3), so that a claim
over every state is a claim for every policy and wiring (93 U1). -/
structure Config where
  /-- `RANGE_POLICY` (00 R5). -/
  rangePolicy : RangePolicy
  /-- SP's output port is wired to SU's input port (60 R150). -/
  spToSu : Bool
  /-- SU's output port is wired to SP's input port (60 R150). -/
  suToSp : Bool
  deriving DecidableEq, Repr

/-- The default build: `RANGE_POLICY = fault`, as 00 R5 gives it; ports unwired.
DESIGN CHOICE (log 3) for the wiring: unsafe for a claim that starts from it and speaks of a chain. -/
def Config.default : Config := ⟨.fault, false, false⟩

/-- FREE VALUE (70 R175, 93 U3; log 13): what `out_end` and `out_data` of a unit show at a moment at which
`out_valid = 0`, or before the unit's first reset (log 17). Safe: no step reads it. -/
opaque Config.freeOut (u : UnitId) (moment : Nat) : TokenWord

/-- FREE VALUE (10 R33, 70 R163, 93 U2; log 17): `in_ready` at a moment before the unit's first reset. Safe: no step reads
it. -/
opaque Config.freeInReady (u : UnitId) (moment : Nat) : Bool

/-- FREE VALUE (10 R33, 70 R163, 93 U2; log 17): `out_valid` at a moment before the unit's first reset. Safe: no step
reads it. -/
opaque Config.freeOutValid (u : UnitId) (moment : Nat) : Bool

/-- `LATENCY` of the n-th accepted token (70 R174, 93 U4; log 14), in clock cycles. Safe: no rule reads it,
and the model has no time (70 R173). -/
opaque Config.latency (n : Nat) : Nat

end Sys2Proof
end

