-- ==== Sys2Proof/Syntax.lean ====
section
/-! DEFINITION. The instructions of the hardware are its five input tokens (30 R62); one constructor per row of the
opcode table, and the unit whose input port each belongs to (20 R42). -/

namespace Sys2Proof

/-- The input tokens (30 R62). The data bits that an END token ignores are kept as an operand, so that no bit of
an encoding is dropped (log 16); no meaning reads them (30 R68). -/
inductive Instr where
  /-- PUT7 d: the next septet is `d`. -/
  | put7 (d : Septet)
  /-- PUT7.OOR d: the data byte `128 + d`, which is no septet. -/
  | put7Oor (d : Septet)
  /-- END7: the septet sequence ends; the 8 data bits are ignored. -/
  | end7 (ignored : Byte)
  /-- PUT8 d: the next octet is `d`. -/
  | put8 (d : Byte)
  /-- END8: the octet sequence ends; the 8 data bits are ignored. -/
  | end8 (ignored : Byte)
  deriving DecidableEq, Repr

/-- The unit whose input stream an instruction belongs to (20 R42). -/
def Instr.port : Instr → UnitId
  | .put7 _ => .sp
  | .put7Oor _ => .sp
  | .end7 _ => .sp
  | .put8 _ => .su
  | .end8 _ => .su

/-- The mnemonic of an instruction (30 R62, R69). -/
def Instr.mnemonic : Instr → String
  | .put7 _ => "PUT7"
  | .put7Oor _ => "PUT7.OOR"
  | .end7 _ => "END7"
  | .put8 _ => "PUT8"
  | .end8 _ => "END8"

end Sys2Proof
end

