-- ==== Sys2Proof/WellFormed.lean ====
section
/-! DEFINITION. What the spec asks of an input beyond its type. An operand's range is in its type; the checks left are the
port an instruction may arrive at (20 R42), the septet range (30 R67, 42 R132), and the closing END (70 R165). -/

namespace Sys2Proof

/-- The instruction is a token of unit `u`'s input stream (20 R42, 30 R66). -/
def Instr.wellFormedAt (u : UnitId) (i : Instr) : Bool := i.port == u

/-- Every instruction of the stream is a token of unit `u` (20 R42). -/
def wellFormedStream (u : UnitId) (is : List Instr) : Bool := is.all (Instr.wellFormedAt u)

/-- The byte is a septet: at most 127 (00 R5, 20 R45). -/
def isSeptet (x : Byte) : Bool := decide (x.toNat ≤ 127)

/-- A septet sequence: every byte at most 127. -/
def allSeptets (xs : List Byte) : Bool := xs.all isSeptet

/-- Not the one encoding that is no well-formed input, PUT7.OOR (30 R67). -/
def Instr.inRange : Instr → Bool
  | .put7 _ => true
  | .put7Oor _ => false
  | .end7 _ => true
  | .put8 _ => true
  | .end8 _ => true

/-- The instruction is an END token. -/
def Instr.isEnd : Instr → Bool
  | .put7 _ => false
  | .put7Oor _ => false
  | .end7 _ => true
  | .put8 _ => false
  | .end8 _ => true

/-- The stream is empty or its last token is END: no sequence is left open (70 R165, R177). -/
def closedStream (is : List Instr) : Bool :=
  match is.getLast? with
  | none => true
  | some i => i.isEnd

end Sys2Proof
end

