-- ==== Sys2Proof/Decode.lean ====
section
/-! DEFINITION. Token words and their decoders, one per unit (30 R60, R62, R66), and the encoder. Which decoder
applies is decided by the port, never by the token (R66). -/

namespace Sys2Proof

/-- The fields of a token word: `end` is bit 8, `data` is bits 7 to 0 (30 R60). -/
def Token.ofWord (w : TokenWord) : Token := ⟨w.getLsbD 8, w.setWidth 8⟩

/-- The token as the number `end * 256 + data` (30 R60). -/
def Token.toWord (t : Token) : TokenWord := BitVec.ofBool t.isEnd ++ t.data

/-- SP's decoder: bit 8 first, then bit 7 (30 R66). -/
def decodeSp (t : Token) : Instr :=
  if t.isEnd then .end7 t.data
  else if t.data.getLsbD 7 then .put7Oor (t.data.setWidth 7)
  else .put7 (t.data.setWidth 7)

/-- SU's decoder: bit 8 only (30 R66). -/
def decodeSu (t : Token) : Instr :=
  if t.isEnd then .end8 t.data else .put8 t.data

/-- The instruction a token is at unit `u`'s input port; total (30 R66). -/
def decodeToken (u : UnitId) (t : Token) : Instr :=
  match u with
  | .sp => decodeSp t
  | .su => decodeSu t

/-- The instruction a 9-bit word is at unit `u`'s input port. -/
def decode (u : UnitId) (w : TokenWord) : Instr := decodeToken u (Token.ofWord w)

/-- Why a number is no token. -/
inductive DecodeError where
  /-- The number needs more than the 9 bits of a token (30 R60: 0x000 to 0x1FF). Safe: no such transfer exists. -/
  | notNineBits
  deriving DecidableEq, Repr

/-- Decode any number; one that is no 9-bit token is rejected by name. -/
def decodeNat (u : UnitId) (w : Nat) : Except DecodeError Instr :=
  if w < 512 then .ok (decode u (BitVec.ofNat 9 w)) else .error .notNineBits

/-- The instruction read from an opcode-table word. The table gives the same words to both units (PUT7 and PUT8 are
both 0x000), and nothing in a word says which port it arrives at (30 R66): this is SP's reading. DESIGN CHOICE
(log 12): unsafe if read as the meaning of a word at SU's port. -/
def decodeTableWord (_nbits w : Nat) : Option Instr :=
  match decodeNat .sp w with
  | .ok i => some i
  | .error _ => none

/-- The token an instruction is (30 R62). -/
def encodeToken : Instr → Token
  | .put7 d => ⟨false, 0#1 ++ d⟩
  | .put7Oor d => ⟨false, 1#1 ++ d⟩
  | .end7 x => ⟨true, x⟩
  | .put8 d => ⟨false, d⟩
  | .end8 x => ⟨true, x⟩

/-- The 9-bit word of an instruction (30 R60, R62). -/
def encode (i : Instr) : TokenWord := (encodeToken i).toWord

/-- One row of the opcode map in match and mask form (30 R66). -/
structure OpcodeRow where
  port     : UnitId
  mnemonic : String
  matchVal : TokenWord
  mask     : TokenWord
  deriving DecidableEq, Repr

/-- The opcode map as 30 R66 writes it out. -/
def opcodeRows : List OpcodeRow :=
  [ ⟨.sp, "PUT7", 0x000, 0x180⟩
  , ⟨.sp, "PUT7.OOR", 0x080, 0x180⟩
  , ⟨.sp, "END7", 0x100, 0x100⟩
  , ⟨.su, "PUT8", 0x000, 0x100⟩
  , ⟨.su, "END8", 0x100, 0x100⟩ ]

/-- The rows of unit `u` that a word matches: `token AND mask = match` (30 R66). -/
def matchingRows (u : UnitId) (w : TokenWord) : List OpcodeRow :=
  opcodeRows.filter fun r => r.port == u && w &&& r.mask == r.matchVal

end Sys2Proof
end

