-- ==== Sys2Proof/Machine/State.lean ====
section
/-! DEFINITION. The state of the machine as plain data: the two units (10 R20 to R24), the four streams and the port
signals around them (20 R40, R42; 70 R160, R175), the build, and the order in which the agents move (70 R176). -/

namespace Sys2Proof.Machine

/-- The registers of SP (10 R20). -/
structure Packer where
  /-- Septets of the current block consumed, 0 to 7 (10 R21). -/
  phase : Phase
  /-- The data byte of the block's most recent septet (10 R22). -/
  prev : Byte
  /-- The fault latch (10 R23). -/
  err : Bool
  /-- Tokens emitted and not yet taken, head first (10 R24). -/
  pend : List Token
  deriving DecidableEq, Repr

/-- The registers of SU (10 R20). It has no fault latch (10 R23). -/
structure Unpacker where
  /-- Octets of the current block consumed, 0 to 7 (10 R21). -/
  phase : Phase
  /-- The block's most recent octet (10 R22). -/
  prev : Byte
  /-- Tokens emitted and not yet taken, head first (10 R24). -/
  pend : List Token
  deriving DecidableEq, Repr

/-- What stands around one unit: its two streams (20 R40, R41) and its pins. -/
structure Port where
  /-- The tokens the producer has still to offer (70 R176 b). -/
  input : List Token
  /-- The token on the input port while `in_valid = 1`; none while `in_valid = 0` (30 R61, 70 R175). -/
  offer : Option Token
  /-- The tokens delivered on the output port so far, oldest first (20 R40). -/
  output : List Token
  /-- The level of the `rst` pin (70 R160). -/
  rst : Bool
  /-- The unit has been reset since power was applied (10 R33, 70 R163). -/
  wasReset : Bool
  deriving DecidableEq, Repr

/-- Which `rst` lines a host move drives; both for chained units (70 R163). -/
structure RstLines where
  sp : Bool
  su : Bool
  deriving DecidableEq, Repr

/-- Whether a host move drives the `rst` line of unit `u`. -/
def RstLines.has (l : RstLines) : UnitId → Bool
  | .sp => l.sp
  | .su => l.su

/-- The host's moves (70 R160, R176 d, R178). -/
inductive HostMove where
  /-- `rst = 1` for one rising edge of `clk`, then 0. -/
  | pulseRst (l : RstLines)
  /-- `rst = 1` at a rising edge, and held. -/
  | holdRst (l : RstLines)
  /-- `rst` goes back to 0. -/
  | releaseRst (l : RstLines)
  deriving DecidableEq, Repr

/-- One move of one agent around a unit (70 R176). -/
inductive Event where
  /-- (b) The producer offers its next token. -/
  | producer (u : UnitId)
  /-- (a) The unit accepts the offered token and runs its rule. -/
  | unit (u : UnitId)
  /-- (c) The consumer takes the head of `pend`; on a wired output port, the link moves it into the other unit. -/
  | consumer (u : UnitId)
  /-- (d) The host. -/
  | host (h : HostMove)
  /-- The producer lowers `in_valid` or changes its token before the transfer, against 70 R175. -/
  | withdraw (u : UnitId)
  deriving DecidableEq, Repr

/-- The whole machine: one SP and one SU (log 1). -/
structure State where
  config : Config
  sp : Packer
  su : Unpacker
  spPort : Port
  suPort : Port
  /-- The moves still to come, first to last: the order in which the agents step, which 70 R176 leaves to the
  environment. The MODEL'S field (log 4). -/
  schedule : List Event
  deriving DecidableEq, Repr

/-- The machine never stops with a fault: the one exception, DomainError, has an entry and leaves a next state
(60 R143; log 11). So nobody raises one, and there is no constructor. -/
inductive Fault where
  deriving DecidableEq, Repr

/-- Why a move has no meaning. -/
inductive Refusal where
  /-- Raised by exec's arm of an instruction that has no meaning yet. Safe. -/
  | notModelled (mnemonic : String)
  /-- Raised by every token presented to, and every delivery from, a unit that has not been reset since power-up:
  its registers are unspecified and a model gives it no step (10 R33, 70 R163, 93 U2). Safe. -/
  | unitNotReset (u : UnitId)
  /-- Raised by a producer that withdraws or changes an offered token before the transfer: what the hardware does is
  not specified and a model has no move (70 R175, R178, 93 U7). Safe. -/
  | handshakeBroken (u : UnitId)
  deriving DecidableEq, Repr

/-- SP's registers right after reset (10 R26 to R29). -/
def Packer.afterReset : Packer := ⟨0#3, 0#8, false, []⟩

/-- SU's registers right after reset (10 R26, R27, R29). -/
def Unpacker.afterReset : Unpacker := ⟨0#3, 0#8, []⟩

/-- A unit's surroundings right after its reset, with nothing offered and nothing delivered.
DESIGN CHOICE (log 5, log 9): the spec gives the streams no initial contents. Unsafe for a claim that rests on it. -/
def Port.afterReset : Port := ⟨[], none, [], false, true⟩

/-- The machine right after reset (10 R26 to R29, 70 R160): nothing has been offered, and no agent has moved. -/
def State.reset : State :=
  ⟨Config.default, Packer.afterReset, Unpacker.afterReset, Port.afterReset, Port.afterReset, []⟩

end Sys2Proof.Machine
end

