-- ==== Sys2Proof/Machine/Bits.lean ====
section
/-! DEFINITION. The bit formulas of the two units: unsigned arithmetic computed exactly and then cut to its width
(00 R8, R9; 42 R128 to R130). -/

namespace Sys2Proof.Machine

/-- `v & 255` (00 R8): "Each result is masked to 8 bits". -/
def cut8 (v : Nat) : Byte := BitVec.ofNat 8 (v &&& 255)

/-- `v & 127` (00 R8). -/
def cut7 (v : Nat) : Nat := v &&& 127

/-- The octet completed by a septet at block position `p`, 1 to 7: octet `p - 1` of the block (40 R87). -/
def octetFormed (p : Nat) (prev x : Byte) : Byte :=
  cut8 ((prev.toNat >>> (p - 1)) ||| (x.toNat <<< (8 - p)))

/-- The last octet of a partial block of `p` septets, 1 to 7 (40 R90). -/
def lastOctet (p : Nat) (prev : Byte) : Byte := cut8 (prev.toNat >>> (p - 1))

/-- The first septet of a block (41 R106, R109). -/
def firstSeptet (y : Byte) : Byte := BitVec.ofNat 8 (cut7 y.toNat)

/-- The septet completed by an octet at block position `q`, 1 to 6 (41 R107; R108 is `q = 6`). -/
def septetFormed (q : Nat) (prev y : Byte) : Byte :=
  BitVec.ofNat 8 ((prev.toNat >>> (8 - q)) ||| cut7 (y.toNat <<< q))

/-- The 8th septet of a block, held back in `prev` (41 R108, R109, R111). -/
def heldSeptet (prev : Byte) : Byte := BitVec.ofNat 8 (prev.toNat >>> 1)

end Sys2Proof.Machine
end

