-- ==== Sys2Proof/Machine/Flags.lean ====
section
/-! DEFINITION. The only flag: SP's fault latch `err` (10 R23). No token writes a flag as a side effect. -/

namespace Sys2Proof.Machine

/-- `err <- 1`; no token clears it (10 R23). -/
def setErr (p : Packer) : Packer := { p with err := true }

/-- The `err` pin: the latch, driven continuously (10 R23, R25). Reading it has no side effect (20 R49).
Before SP's first reset the latch is any value (10 R33), and so is the pin: no state says which (log 17). -/
def errPin (s : State) : Bool := s.sp.err

end Sys2Proof.Machine
end

