-- ==== Sys2Proof/Machine/Operands.lean ====
section
/-! DEFINITION. Operand assembly (30 R64, R65; 40 R88). -/

namespace Sys2Proof.Machine

/-- `x = zext_8(data[6:0])`: the septet in its byte container (30 R64). -/
def septetOperand (d : Septet) : Byte := d.setWidth 8

/-- `data[7:0]` of a data token with `data[7] = 1`: the byte `128 + d` (30 R62, R69). -/
def outOfRangeByte (d : Septet) : Byte := 1#1 ++ d

/-- PUT7.OOR's operand under each policy; none is `raise DomainError` (30 R64, 40 R88). -/
def outOfRangeOperand (policy : RangePolicy) (d : Septet) : Option Byte :=
  match policy with
  | .fault => none
  | .mask => some (septetOperand d)
  | .raw => some (outOfRangeByte d)

/-- PUT8's operand: `data[7:0]` (30 R65). -/
def octetOperand (d : Byte) : Byte := d

end Sys2Proof.Machine
end

