-- ==== Sys2Proof/Machine/Ops.lean ====
section
/-! DEFINITION. The operations the meanings and the agents are made of: emitting, writing the block registers,
the fault entry and the reset that is its only way out, acceptance, and the views of a port by unit. -/

namespace Sys2Proof.Machine

/-! ### The registers of one unit -/

/-- `Emit(e, d)` in SP: append to the tail of `pend` (00 R11, 10 R24). -/
def spEmit (t : Token) (p : Packer) : Packer := { p with pend := p.pend ++ [t] }

/-- Write SP's block registers together (00 R10). -/
def spSetBlock (phase : Phase) (prev : Byte) (p : Packer) : Packer := { p with phase := phase, prev := prev }

/-- `Emit(e, d)` in SU. -/
def suEmit (t : Token) (p : Unpacker) : Unpacker := { p with pend := p.pend ++ [t] }

/-- Write SU's block registers together (00 R10). -/
def suSetBlock (phase : Phase) (prev : Byte) (p : Unpacker) : Unpacker := { p with phase := phase, prev := prev }

/-- `raise DomainError`, the only exception entry: `err <- 1`; `phase`, `prev` and `pend` keep their values and
control goes nowhere (60 R143). -/
def takeDomainError (p : Packer) : Packer := setErr p

/-- SP consumes one data byte: the first of a block (40 R86), or one at position 1 to 7, which completes an octet
(40 R87). -/
def spConsume (x : Byte) (p : Packer) : Packer :=
  if p.phase = 0#3 then spSetBlock 1#3 x p
  else if p.phase = 7#3 then
    spSetBlock 0#3 0#8 (spEmit (Token.ofData (octetFormed 7 p.prev x)) p)
  else
    spSetBlock (p.phase + 1#3) x (spEmit (Token.ofData (octetFormed p.phase.toNat p.prev x)) p)

/-- SP ends the sequence: the last octet of a partial block, then END (40 R90). -/
def spFinish (p : Packer) : Packer :=
  spSetBlock 0#3 0#8 (spEmit Token.fin
    (if p.phase = 0#3 then p else spEmit (Token.ofData (lastOctet p.phase.toNat p.prev)) p))

/-- SU consumes one octet: the first of a sequence (41 R106), one at position 1 to 6 (41 R107, R108), or one that
follows a full block and releases the septet held back (41 R109). -/
def suConsume (y : Byte) (p : Unpacker) : Unpacker :=
  if p.phase = 0#3 then
    suSetBlock 1#3 y (suEmit (Token.ofData (firstSeptet y)) p)
  else if p.phase = 7#3 then
    suSetBlock 1#3 y (suEmit (Token.ofData (firstSeptet y)) (suEmit (Token.ofData (heldSeptet p.prev)) p))
  else
    suSetBlock (p.phase + 1#3) y (suEmit (Token.ofData (septetFormed p.phase.toNat p.prev y)) p)

/-- SU ends the sequence: after a full block the held septet if it is not zero (41 R111), then END (41 R110). -/
def suFinish (p : Unpacker) : Unpacker :=
  suSetBlock 0#3 0#8 (suEmit Token.fin
    (if p.phase = 7#3 ∧ heldSeptet p.prev ≠ 0#8 then suEmit (Token.ofData (heldSeptet p.prev)) p else p))

/-! ### The machine by unit -/

/-- The surroundings of unit `u`. -/
def portOf (s : State) : UnitId → Port
  | .sp => s.spPort
  | .su => s.suPort

/-- Replace the surroundings of unit `u`. -/
def setPort (s : State) (u : UnitId) (p : Port) : State :=
  match u with
  | .sp => { s with spPort := p }
  | .su => { s with suPort := p }

/-- The output queue of unit `u`. -/
def pendOf (s : State) : UnitId → List Token
  | .sp => s.sp.pend
  | .su => s.su.pend

/-- Replace the output queue of unit `u`. -/
def setPend (s : State) (u : UnitId) (q : List Token) : State :=
  match u with
  | .sp => { s with sp := { s.sp with pend := q } }
  | .su => { s with su := { s.su with pend := q } }

/-- Unit `u`'s latch stops acceptance; SU has none (10 R23, R24). -/
def errOf (s : State) : UnitId → Bool
  | .sp => s.sp.err
  | .su => false

/-- The input port of unit `u` is wired to the other unit's output port, so `u` has no producer (60 R150). -/
def fedByPeer (s : State) : UnitId → Bool
  | .sp => s.config.suToSp
  | .su => s.config.spToSu

/-- Unit `u` accepts a token: it is out of reset, `pend` is empty, and in SP `err = 0` (10 R24, 70 R175, R176 a). -/
def canAccept (s : State) (u : UnitId) : Bool :=
  (portOf s u).wasReset && !(portOf s u).rst && (pendOf s u).isEmpty && !errOf s u

/-- Present a token to SP. It has its effect on SP's registers if SP accepts it; if not, it waits and nothing changes
(10 R24, 93 U8; log 7). A unit not yet reset has no step (10 R33; log 8). -/
def presentSp (act : Packer → Packer) (s : State) : Host.Outcome State Fault Refusal :=
  if !s.spPort.wasReset then .refused (.unitNotReset .sp)
  else if canAccept s .sp then .next { s with sp := act s.sp }
  else .next s

/-- Present a token to SU; as `presentSp`. -/
def presentSu (act : Unpacker → Unpacker) (s : State) : Host.Outcome State Fault Refusal :=
  if !s.suPort.wasReset then .refused (.unitNotReset .su)
  else if canAccept s .su then .next { s with su := act s.su }
  else .next s

/-- A rising edge of `clk` with `rst = 1` at unit `u`: its registers take their reset values, tokens in `pend` are
discarded, and nothing is transferred on either port; the pin is left at `level` (70 R160, R161; 10 R29). It is the
only way out of the fault (60 R145). -/
def resetEdge (level : Bool) (u : UnitId) (s : State) : State :=
  match u with
  | .sp => { s with sp := Packer.afterReset, spPort := { s.spPort with rst := level, wasReset := true } }
  | .su => { s with su := Unpacker.afterReset, suPort := { s.suPort with rst := level, wasReset := true } }

/-- The `rst` pin of unit `u` goes to 0. -/
def releasePin (u : UnitId) (s : State) : State :=
  setPort s u { portOf s u with rst := false }

/-- Apply a change to each unit whose `rst` line the host drives. -/
def onLines (l : RstLines) (act : UnitId → State → State) (s : State) : State :=
  (fun s' => if l.su then act .su s' else s') (if l.sp then act .sp s else s)

end Sys2Proof.Machine
end

