-- ==== Sys2Proof/Machine/Packing.lean ====
section
/-! DEFINITION. The tokens of SP (40 R86 to R92). -/

namespace Sys2Proof.Machine

/-- PUT7 d: the next septet (40 R86, R87). -/
def execPut7 (d : Septet) (s : State) : Host.Outcome State Fault Refusal :=
  presentSp (spConsume (septetOperand d)) s

/-- PUT7.OOR d: DomainError, or as PUT7 of the byte the policy gives (40 R88, 60 R143). -/
def execPut7Oor (d : Septet) (s : State) : Host.Outcome State Fault Refusal :=
  presentSp (fun p =>
    match outOfRangeOperand s.config.rangePolicy d with
    | none => takeDomainError p
    | some x => spConsume x p) s

/-- END7: flush and END (40 R90); the data bits are ignored (30 R68). -/
def execEnd7 (_ignored : Byte) (s : State) : Host.Outcome State Fault Refusal :=
  presentSp spFinish s

end Sys2Proof.Machine
end

