-- ==== Sys2Proof/Machine/Unpacking.lean ====
section
/-! DEFINITION. The tokens of SU (41 R106 to R112). -/

namespace Sys2Proof.Machine

/-- PUT8 d: the next octet (41 R106 to R109). -/
def execPut8 (d : Byte) (s : State) : Host.Outcome State Fault Refusal :=
  presentSu (suConsume (octetOperand d)) s

/-- END8: the held septet if it is owed, and END (41 R110, R111); the data bits are ignored (30 R68). -/
def execEnd8 (_ignored : Byte) (s : State) : Host.Outcome State Fault Refusal :=
  presentSu suFinish s

end Sys2Proof.Machine
end

