-- ==== Sys2Proof/Machine/Dispatch.lean ====
section
/-! DEFINITION. One arm per instruction: presenting that token at its unit's input port. -/

namespace Sys2Proof.Machine

def exec (i : Instr) (s : State) : Host.Outcome State Fault Refusal :=
  match i with
  | .put7 d => Sys2Proof.Machine.execPut7 d s
  | .put7Oor d => Sys2Proof.Machine.execPut7Oor d s
  | .end7 ignored => Sys2Proof.Machine.execEnd7 ignored s
  | .put8 d => Sys2Proof.Machine.execPut8 d s
  | .end8 ignored => Sys2Proof.Machine.execEnd8 ignored s

end Sys2Proof.Machine
end

