-- ==== Sys2Proof/Machine/Agents.lean ====
section
/-! DEFINITION. The agents around the units and the step of each (70 R176, R178). A move that its agent cannot make at
the moment changes nothing: no transfer happens at that edge (70 R175; log 4). -/

namespace Sys2Proof.Machine

/-- The producer of unit `u` offers the next token of its stream, one at a time, and holds it until the transfer
(70 R175, R176 b). A wired input port has no producer. -/
def producerMove (u : UnitId) (s : State) : State :=
  if fedByPeer s u then s
  else
    match (portOf s u).offer, (portOf s u).input with
    | none, t :: rest => setPort s u { portOf s u with offer := some t, input := rest }
    | _, _ => s

/-- The offered token is transferred: it leaves the input port, consumed exactly once (00 R11, 20 R49). -/
def takeOffer (u : UnitId) (s : State) : State :=
  setPort s u { portOf s u with offer := none }

/-- Unit `u` runs the rule of the token its producer is offering; the token leaves the port only if it is accepted
(70 R176 a). -/
def unitMove (u : UnitId) (s : State) : Host.Outcome State Fault Refusal :=
  if fedByPeer s u then .next s
  else
    match (portOf s u).offer with
    | none => .next s
    | some t => exec (decodeToken u t) (if canAccept s u then takeOffer u s else s)

/-- The head of unit `u`'s `pend` is transferred on its output port and joins the output stream (10 R24, 20 R51). -/
def deliverHead (u : UnitId) (t : Token) (rest : List Token) (s : State) : State :=
  setPort (setPend s u rest) u { portOf s u with output := (portOf s u).output ++ [t] }

/-- The consumer of unit `u` takes the head of `pend` (70 R176 c). On a wired output port the same move is the other
unit's acceptance of the token, and happens only if that unit accepts (60 R150). While `rst = 1`, `out_valid = 0`
(70 R160, R175). -/
def consumerMove (u : UnitId) (s : State) : Host.Outcome State Fault Refusal :=
  if !(portOf s u).wasReset then .refused (.unitNotReset u)
  else if (portOf s u).rst then .next s
  else
    match pendOf s u with
    | [] => .next s
    | t :: rest =>
      if fedByPeer s u.peer then
        exec (decodeToken u.peer t) (if canAccept s u.peer then deliverHead u t rest s else s)
      else .next (deliverHead u t rest s)

/-- The host drives the `rst` lines (70 R160, R176 d). -/
def hostMove (h : HostMove) (s : State) : State :=
  match h with
  | .pulseRst l => onLines l (resetEdge false) s
  | .holdRst l => onLines l (resetEdge true) s
  | .releaseRst l => onLines l releasePin s

/-- A producer that withdraws or changes an offered token has no move (70 R175, R178; 93 U7). With nothing offered
there is nothing to withdraw. -/
def withdrawMove (u : UnitId) (s : State) : Host.Outcome State Fault Refusal :=
  match (portOf s u).offer with
  | none => .next s
  | some _ => .refused (.handshakeBroken u)

/-- One move of one agent. -/
def agentMove (e : Event) (s : State) : Host.Outcome State Fault Refusal :=
  match e with
  | .producer u => .next (producerMove u s)
  | .unit u => unitMove u s
  | .consumer u => consumerMove u s
  | .host h => .next (hostMove h s)
  | .withdraw u => withdrawMove u s

/-- The next move of the schedule. When no agent is scheduled every unit is idle and keeps its state (60 R151). -/
def nextMove (s : State) : Host.Outcome State Fault Refusal :=
  match s.schedule with
  | [] => .next s
  | e :: rest => agentMove e { s with schedule := rest }

/-- Put a token where SP's next step takes it: on SP's own input port, with SP scheduled to move (log 12). -/
def offerToSp (t : Token) (s : State) : State :=
  { s with
    config := { s.config with suToSp := false }
    spPort := { s.spPort with offer := some t }
    schedule := .unit .sp :: s.schedule }

end Sys2Proof.Machine
end

