-- ==== Sys2Proof/Machine/Step.lean ====
section
/-! DEFINITION. One step: the next agent in the schedule moves (70 R176). -/

namespace Sys2Proof.Machine

/-- One step of the machine. -/
def step (s : State) : Host.Outcome State Fault Refusal := nextMove s

/-- The state with the token of an opcode-table word on SP's input port and SP to move next, so that `step` runs it.
Nothing in the word names a port, and this is SP's reading, as `decodeTableWord`'s (log 12). -/
def State.withFetchWord (s : State) (_nbits w : Nat) : State :=
  offerToSp (Token.ofWord (BitVec.ofNat 9 w)) s

end Sys2Proof.Machine
end

