-- ==== Sys2Proof/Machine/Codec.lean ====
section
/-! DEFINITION. The functions the units compute, as the spec defines them on whole sequences: `pack` (40 R80 to R85) and
`unpack` (41 R100 to R105). They are written from the block formulas, apart from the token rules. -/

namespace Sys2Proof.Machine

/-- `PackBlock8`: 8 septets to 7 octets (40 R80). -/
def packBlock8 (a b c d e f g h : Byte) : List Byte :=
  [ cut8 (a.toNat ||| (b.toNat <<< 7))
  , cut8 ((b.toNat >>> 1) ||| (c.toNat <<< 6))
  , cut8 ((c.toNat >>> 2) ||| (d.toNat <<< 5))
  , cut8 ((d.toNat >>> 3) ||| (e.toNat <<< 4))
  , cut8 ((e.toNat >>> 4) ||| (f.toNat <<< 3))
  , cut8 ((f.toNat >>> 5) ||| (g.toNat <<< 2))
  , cut8 ((g.toNat >>> 6) ||| (h.toNat <<< 1)) ]

/-- The octets of a partial block whose first septet stands at block position `j` (40 R81, R82): each septet with its
successor, and the last one alone. `PackBlock_k` is `packPartial 0`. -/
def packPartial (j : Nat) : List Byte → List Byte
  | [] => []
  | [x] => [cut8 (x.toNat >>> j)]
  | x :: y :: rest => cut8 ((x.toNat >>> j) ||| (y.toNat <<< (7 - j))) :: packPartial (j + 1) (y :: rest)

/-- `pack` (40 R84): full blocks in order, then the partial block; no octet is dropped (R85). -/
def pack : List Byte → List Byte
  | a :: b :: c :: d :: e :: f :: g :: h :: rest => packBlock8 a b c d e f g h ++ pack rest
  | short => packPartial 0 short

/-- The septets `s_0` to `s_6` of a block of 7 octets (41 R100). -/
def unpackFirst7 (a b c d e f g : Byte) : List Byte :=
  [ BitVec.ofNat 8 (cut7 a.toNat)
  , BitVec.ofNat 8 ((a.toNat >>> 7) ||| cut7 (b.toNat <<< 1))
  , BitVec.ofNat 8 ((b.toNat >>> 6) ||| cut7 (c.toNat <<< 2))
  , BitVec.ofNat 8 ((c.toNat >>> 5) ||| cut7 (d.toNat <<< 3))
  , BitVec.ofNat 8 ((d.toNat >>> 4) ||| cut7 (e.toNat <<< 4))
  , BitVec.ofNat 8 ((e.toNat >>> 3) ||| cut7 (f.toNat <<< 5))
  , BitVec.ofNat 8 ((f.toNat >>> 2) ||| cut7 (g.toNat <<< 6)) ]

/-- `s_7 = g >> 1` (41 R100). -/
def unpackEighth (g : Byte) : Byte := BitVec.ofNat 8 (g.toNat >>> 1)

/-- `UnpackBlock7`: 7 octets to 8 septets (41 R100). -/
def unpackBlock7 (a b c d e f g : Byte) : List Byte := unpackFirst7 a b c d e f g ++ [unpackEighth g]

/-- A block of 7 octets that ends the sequence: the 8th septet only if it is not zero (41 R104). -/
def unpackFinal7 (a b c d e f g : Byte) : List Byte :=
  unpackFirst7 a b c d e f g ++ (if unpackEighth g = 0#8 then [] else [unpackEighth g])

/-- The septets after the first of a partial group, the octet before them being `x` at block position `j - 1`
(41 R101, R102). -/
def unpackPartialFrom (j : Nat) (x : Byte) : List Byte → List Byte
  | [] => []
  | y :: rest => BitVec.ofNat 8 ((x.toNat >>> (8 - j)) ||| cut7 (y.toNat <<< j)) :: unpackPartialFrom (j + 1) y rest

/-- `UnpackBlock_k`: k octets to k septets, 1 to 6; the top k bits of the last octet are dropped (41 R102). -/
def unpackPartial : List Byte → List Byte
  | [] => []
  | y :: rest => BitVec.ofNat 8 (cut7 y.toNat) :: unpackPartialFrom 1 y rest

/-- `unpack` (41 R105): full blocks in order, the last one with zero suppression, then the partial group. -/
def unpack : List Byte → List Byte
  | [a, b, c, d, e, f, g] => unpackFinal7 a b c d e f g
  | a :: b :: c :: d :: e :: f :: g :: h :: rest => unpackBlock7 a b c d e f g ++ unpack (h :: rest)
  | short => unpackPartial short

/-- What each byte of a sequence becomes before `pack` sees it (40 R88, R89): itself under `raw`, its low 7 bits under
`mask`; under `fault` a byte above 127 never reaches it. -/
def underPolicy (policy : RangePolicy) (x : Byte) : Byte :=
  match policy with
  | .fault => x
  | .mask => BitVec.ofNat 8 (cut7 x.toNat)
  | .raw => x

end Sys2Proof.Machine
end

