-- ==== Sys2Proof/Machine/Notation.lean ====
section
/-! DEFINITION. The textual notation of the spec (30 R69 to R72): the pseudo-instructions PACK and UNPACK, the text of a
token, and the result of a sequence. -/

namespace Sys2Proof.Machine

/-- The SP instruction that carries a byte: PUT7 up to 127, PUT7.OOR above (30 R70). -/
def putByte (x : Byte) : Instr :=
  if x.getLsbD 7 then .put7Oor (x.setWidth 7) else .put7 (x.setWidth 7)

/-- `PACK [x0, ...]` (30 R70). -/
def packProgram (xs : List Byte) : List Instr := xs.map putByte ++ [.end7 0#8]

/-- `UNPACK [y0, ...]` (30 R71). -/
def unpackProgram (ys : List Byte) : List Instr := ys.map Instr.put8 ++ [.end8 0#8]

/-- The tokens a producer sends for a list of instructions. -/
def tokensOf (is : List Instr) : List Token := is.map encodeToken

/-- The text of an input token, its operand in decimal (30 R69). -/
def instrText (i : Instr) : String :=
  match i with
  | .put7 d => i.mnemonic ++ " " ++ Nat.repr d.toNat
  | .put7Oor d => i.mnemonic ++ " " ++ Nat.repr d.toNat
  | .end7 _ => i.mnemonic
  | .put8 d => i.mnemonic ++ " " ++ Nat.repr d.toNat
  | .end8 _ => i.mnemonic

/-- The text of an output token of unit `u`: `OCT d`, `SEP d` or `END` (30 R63, R69). -/
def outputText (u : UnitId) (t : Token) : String :=
  if t.isEnd then "END"
  else (match u with | .sp => "OCT " | .su => "SEP ") ++ Nat.repr t.data.toNat

/-- The data bytes up to, and not including, the first END token (30 R72). -/
def resultBytes : List Token → List Byte
  | [] => []
  | t :: rest => if t.isEnd then [] else t.data :: resultBytes rest

/-- The result of a sequence as the spec writes it (30 R72). -/
inductive SequenceResult where
  /-- `-> [d0, d1, ...]`: closed by an END token. -/
  | closed (bytes : List Byte)
  /-- `-> fault after [d0, ...]`: SP faulted, and no END follows. -/
  | faultAfter (bytes : List Byte)
  /-- Neither: the sequence is still open (70 R177). -/
  | unfinished (bytes : List Byte)
  deriving DecidableEq, Repr

/-- The result read off the observation of a sequence, which is the pair of its output tokens and `err`
(60 R152; 92 D23). -/
def resultOf (output : List Token) (err : Bool) : SequenceResult :=
  if output.any Token.isEnd then .closed (resultBytes output)
  else if err then .faultAfter (resultBytes output)
  else .unfinished (resultBytes output)

/-- The output tokens of a finished sequence: its data bytes and END. -/
def closedOutput (bytes : List Byte) : List Token := bytes.map Token.ofData ++ [Token.fin]

end Sys2Proof.Machine
end

