-- ==== Sys2Proof/Machine/Pins.lean ====
section
/-! DEFINITION. The signals of a unit's ports as functions of the state (30 R61; 70 R160, R175). The clock and the cycles
between two moves are not modelled (70 R173): `moment` numbers the occasions on which a signal is looked at, and only the
free values read it. DESIGN CHOICE (log 17): the output signals of a unit that has not been reset since power-up, of which
the spec says nothing (10 R33, 70 R163), are free values. Safe. -/

namespace Sys2Proof.Machine

/-- `in_ready`. Of a unit that has been reset: the condition of 70 R175; `LATENCY` says when it rises, and no rule reads
that (70 R173, R174; log 14). Before the first reset: a free value (log 17). -/
def inReady (s : State) (u : UnitId) (moment : Nat) : Bool :=
  if (portOf s u).wasReset then canAccept s u else Config.freeInReady u moment

/-- `out_valid`. Of a unit that has been reset: `pend` is not empty and `rst = 0` (70 R160, R175; log 14). Before the first
reset: a free value (log 17). -/
def outValid (s : State) (u : UnitId) (moment : Nat) : Bool :=
  if (portOf s u).wasReset then !(portOf s u).rst && !(pendOf s u).isEmpty else Config.freeOutValid u moment

/-- `in_valid`: the producer offers a token; on a wired port it is the other unit's `out_valid` (60 R150, 70 R175), free
before that unit's first reset (log 17). -/
def inValid (s : State) (u : UnitId) (moment : Nat) : Bool :=
  if fedByPeer s u then outValid s u.peer moment else (portOf s u).offer.isSome

/-- `out_end` and `out_data` as one word. Of a unit that has been reset: the head of `pend` while `out_valid = 1`, else
unspecified (70 R175, 93 U3; log 13). Before the first reset: a free value (log 17). -/
def outWord (s : State) (u : UnitId) (moment : Nat) : TokenWord :=
  if (portOf s u).wasReset && outValid s u moment then
    match pendOf s u with
    | [] => Config.freeOut u moment
    | t :: _ => t.toWord
  else Config.freeOut u moment

end Sys2Proof.Machine
end

