-- ==== Sys2Proof/Safety.lean ====
section
/-! DEFINITION. The terms claims use: the invariant of the two units, what a run observes, when it has ended, and
schedules that run it to its end. -/

namespace Sys2Proof.Machine

/-! ### The invariant -/

/-- What holds of SP's registers at all times after its first reset (10 R22, R23, R24, R30; 30 R63; 70 R160). -/
abbrev PackerInv (policy : RangePolicy) (rst : Bool) (p : Packer) : Prop :=
  p.pend.length ≤ 2
  ∧ (p.phase = 0#3 → p.prev = 0#8)
  ∧ (policy ≠ .raw → p.prev.toNat ≤ 127)
  ∧ (p.err = true → policy = .fault)
  ∧ (∀ t ∈ p.pend, t.isEnd = true → t = Token.fin ∧ p.phase = 0#3)
  ∧ (rst = true → p = Packer.afterReset)

/-- What holds of SU's registers at all times after its first reset; its septets are at most 127 (42 R132). -/
abbrev UnpackerInv (rst : Bool) (p : Unpacker) : Prop :=
  p.pend.length ≤ 2
  ∧ (p.phase = 0#3 → p.prev = 0#8)
  ∧ (∀ t ∈ p.pend, t.isEnd = true → t = Token.fin ∧ p.phase = 0#3)
  ∧ (∀ t ∈ p.pend, isSeptet t.data = true)
  ∧ (rst = true → p = Unpacker.afterReset)

/-- The invariant of the machine. A unit that has never been reset has unspecified registers (10 R33), so nothing is
said of them. -/
abbrev MachineInv (s : State) : Prop :=
  (s.spPort.wasReset = true → PackerInv s.config.rangePolicy s.spPort.rst s.sp)
  ∧ (s.suPort.wasReset = true → UnpackerInv s.suPort.rst s.su)
  ∧ (∀ t ∈ s.spPort.output, t.isEnd = true → t = Token.fin)
  ∧ (∀ t ∈ s.suPort.output, isSeptet t.data = true ∧ (t.isEnd = true → t = Token.fin))

/-! ### Runs -/

/-- A host move that drives the `rst` line of `u` high. -/
def resetsUnit (u : UnitId) : Event → Bool
  | .host (.pulseRst l) => l.has u
  | .host (.holdRst l) => l.has u
  | .host (.releaseRst _) => false
  | .producer _ => false
  | .unit _ => false
  | .consumer _ => false
  | .withdraw _ => false

/-- The host resets unit `u` in none of the scheduled moves. -/
def noReset (u : UnitId) (s : State) : Bool := s.schedule.all fun e => !resetsUnit u e

/-- The tokens of unit `u`'s own input stream it has not accepted: the one offered, then the rest (20 R41). -/
def streamLeft (s : State) (u : UnitId) : List Token :=
  (portOf s u).offer.toList ++ (portOf s u).input

/-- Every token unit `u` has emitted and not lost to a reset: delivered, then pending (20 R51). -/
def emittedAll (s : State) (u : UnitId) : List Token := (portOf s u).output ++ pendOf s u

/-- The block registers of unit `u`. -/
def blockOf (s : State) : UnitId → Phase × Byte
  | .sp => (s.sp.phase, s.sp.prev)
  | .su => (s.su.phase, s.su.prev)

/-- Unit `u` holds its reset values (10 R26 to R29). -/
def atReset (s : State) (u : UnitId) : Bool :=
  match u with
  | .sp => s.sp == Packer.afterReset
  | .su => s.su == Unpacker.afterReset

/-- The run of unit `u` has ended (70 R177): every token accepted and `pend` empty, or (SP) `err = 1` and `pend` empty. -/
def ended (s : State) (u : UnitId) : Bool :=
  (pendOf s u).isEmpty && ((streamLeft s u).isEmpty || errOf s u)

/-- One round of a fair schedule around unit `u`: offer, accept, and take the at most two tokens emitted. -/
def fairRound (u : UnitId) : List Event := [.producer u, .unit u, .consumer u, .consumer u]

/-- `n` rounds, enough for `n` tokens (70 R173, R177). -/
def fairSchedule (u : UnitId) : Nat → List Event
  | 0 => []
  | n + 1 => fairRound u ++ fairSchedule u n

/-- One round around SP wired to SU: SP takes a token, and each of its at most two outputs goes through SU. -/
def chainRound : List Event :=
  [ .producer .sp, .unit .sp
  , .consumer .sp, .consumer .su, .consumer .su
  , .consumer .sp, .consumer .su, .consumer .su ]

/-- `n` rounds of the chain. -/
def chainSchedule : Nat → List Event
  | 0 => []
  | n + 1 => chainRound ++ chainSchedule n

end Sys2Proof.Machine
end

