-- ==== Sys2Proof/Certificates/Slice0/Obligations.lean ====
section
/-! DEFINITION. The statements for the provers, in the order of the spec's files: state and reset, encodings, the tokens of
SP, the tokens of SU, the codec's laws, the fault, the handshake and the agents, runs, and the invariant. -/

open Sys2Proof Sys2Proof.Machine

/-! ### State and reset -/

/-- 10 R26 to R29: the reset values of both units. -/
def Obligations.ResetValuesOfTheUnits : Prop :=
  State.reset.sp.phase = 0#3 ∧ State.reset.su.phase = 0#3
  ∧ State.reset.sp.prev = 0#8 ∧ State.reset.su.prev = 0#8
  ∧ State.reset.sp.err = false
  ∧ State.reset.sp.pend = [] ∧ State.reset.su.pend = []

/-- 70 R160, R161 (10 R29): a rising edge with `rst = 1`, whether the pin is then held or not, gives each unit whose line
is driven its reset state, whatever it held and whether or not it was reset before; nothing is transferred on any port;
the other unit and all four streams stay. Releasing the pin changes the pin alone. The pin as a level that the host's moves
drive, and the mark that the unit has been reset, are the model's (log 8, log 9). -/
def Obligations.ResetEdgeTakesResetState : Prop :=
  ∀ (s : State) (l : RstLines) (rest : List Event),
    (∀ held : Bool,
      s.schedule = Event.host (if held then HostMove.holdRst l else HostMove.pulseRst l) :: rest →
      step s = .next
        { config := s.config
          sp := if l.sp then ⟨0#3, 0#8, false, []⟩ else s.sp
          su := if l.su then ⟨0#3, 0#8, []⟩ else s.su
          spPort := if l.sp then { s.spPort with rst := held, wasReset := true } else s.spPort
          suPort := if l.su then { s.suPort with rst := held, wasReset := true } else s.suPort
          schedule := rest })
    ∧ (s.schedule = Event.host (.releaseRst l) :: rest →
        step s = .next
          { s with
            spPort := if l.sp then { s.spPort with rst := false } else s.spPort
            suPort := if l.su then { s.suPort with rst := false } else s.suPort
            schedule := rest })

/-- 10 R24, 70 R175, R176 a: when a unit accepts a token. SU has no latch to ask. The mark of a first reset is the model's
form of 10 R33 (log 8). -/
def Obligations.AcceptanceCondition : Prop :=
  ∀ s : State,
    (canAccept s .sp = true ↔
      s.spPort.wasReset = true ∧ s.spPort.rst = false ∧ s.sp.pend = [] ∧ s.sp.err = false)
    ∧ (canAccept s .su = true ↔
      s.suPort.wasReset = true ∧ s.suPort.rst = false ∧ s.su.pend = [])

/-- 10 R24, R33; 70 R163; 93 U2, U8: a token presented to a unit that cannot accept it waits, and nothing changes (log 7); a
unit that has not been reset since power-up has no step, under a refusal's name that is the model's (log 8). -/
def Obligations.UnacceptedTokenHasNoEffect : Prop :=
  ∀ (i : Instr) (s : State), canAccept s i.port = false →
    exec i s = if (portOf s i.port).wasReset then .next s else .refused (.unitNotReset i.port)

/-- 10 R20: the frame of every instruction. It writes its own unit's registers only: the other unit, both ports' streams
and pins, the build and the schedule stay, the unit's queue only grows at its tail, and `err` changes in no case but
PUT7.OOR's under `RANGE_POLICY = fault`. -/
def Obligations.TokensWriteTheirUnitOnly : Prop :=
  ∀ (i : Instr) (s t : State), exec i s = .next t →
    (i.port = .sp → t = { s with sp := t.sp } ∧ ∃ out, t.sp.pend = s.sp.pend ++ out)
    ∧ (i.port = .su → t = { s with su := t.su } ∧ ∃ out, t.su.pend = s.su.pend ++ out)
    ∧ (t.sp.err = s.sp.err ∨ (∃ d, i = .put7Oor d) ∧ s.config.rangePolicy = .fault)

/-! ### Encodings -/

/-- 30 R60, R62, R66: at each port the decoder and the encoder are inverse to each other. Every word is the word of the
instruction it decodes to, which is an instruction of that port; every instruction of the port decodes from its word; so a
list of instructions of the port is read back from the tokens a producer sends for it; and no number above nine bits is a
token. -/
def Obligations.DecodeEncodeAgree : Prop :=
  ∀ u : UnitId,
    (∀ w : TokenWord, encode (decode u w) = w ∧ (decode u w).wellFormedAt u = true)
    ∧ (∀ i : Instr, i.wellFormedAt u = true → decode u (encode i) = i)
    ∧ (∀ is : List Instr, wellFormedStream u is = true → (tokensOf is).map (decodeToken u) = is)
    ∧ (∀ w : Nat, (∃ i, decodeNat u w = .ok i) ↔ w < 512)

/-- 30 R66: every word matches exactly one row of its port, the row of the mnemonic it decodes to. -/
def Obligations.EveryWordMatchesOneRow : Prop :=
  ∀ (u : UnitId) (w : TokenWord), (matchingRows u w).map OpcodeRow.mnemonic = [(decode u w).mnemonic]

/-- 30 R69: the encodings the spec writes out, at the port each belongs to. -/
def Obligations.WrittenWordsDecode : Prop :=
  decode .sp 0x041 = .put7 0x41 ∧ decode .sp 0x081 = .put7Oor 0x01 ∧ decode .sp 0x100 = .end7 0x00
  ∧ decode .su 0x0C1 = .put8 0xC1 ∧ decode .su 0x100 = .end8 0x00
  ∧ (Token.ofData 0xC1).toWord = 0x0C1 ∧ (Token.ofData 0x41).toWord = 0x041 ∧ Token.fin.toWord = 0x100

/-- 30 R68: two END tokens that differ only in `data` have the same effect, at either port. -/
def Obligations.EndDataBitsAreIgnored : Prop :=
  ∀ (u : UnitId) (t t' : Token) (s : State), t.isEnd = true → t'.isEnd = true →
    exec (decodeToken u t) s = exec (decodeToken u t') s

/-- 30 R63, 60 R150: an output token of a unit is a legal input token of the other: SP's octet is PUT8 of it, SU's septet
is PUT7 of it, and END is END. -/
def Obligations.OutputTokensChain : Prop :=
  (∀ d : Byte, decodeToken .su (Token.ofData d) = .put8 d)
  ∧ (∀ d : Byte, isSeptet d = true → decodeToken .sp (Token.ofData d) = .put7 (d.setWidth 7))
  ∧ decodeToken .su Token.fin = .end8 0#8 ∧ decodeToken .sp Token.fin = .end7 0#8

/-! ### The tokens of SP -/

/-- 40 R86: PUT7 at phase 0 takes the septet and emits nothing. -/
def Obligations.Put7OpensBlock : Prop :=
  ∀ (d : Septet) (s : State), canAccept s .sp = true → s.sp.phase = 0#3 →
    exec (.put7 d) s = .next { s with sp := { s.sp with phase := 1#3, prev := d.setWidth 8 } }

/-- 40 R87: PUT7 at phase p, 1 to 7, emits octet p - 1 of the block; at phase 7 the block ends. -/
def Obligations.Put7CompletesOctet : Prop :=
  ∀ (d : Septet) (s : State), canAccept s .sp = true → s.sp.phase ≠ 0#3 →
    exec (.put7 d) s = .next
      { s with
        sp :=
          { s.sp with
            phase := if s.sp.phase = 7#3 then 0#3 else s.sp.phase + 1#3
            prev := if s.sp.phase = 7#3 then 0#8 else d.setWidth 8
            pend := [⟨false, (s.sp.prev >>> (s.sp.phase.toNat - 1)) ||| ((d.setWidth 8 : Byte) <<< (8 - s.sp.phase.toNat))⟩] } }

/-- 40 R88: PUT7.OOR under each policy and at every phase: DomainError; as PUT7 of the low 7 bits; or the token rules
applied to the byte `128 + d` as it is. -/
def Obligations.OutOfRangeByPolicy : Prop :=
  ∀ (d : Septet) (s : State), canAccept s .sp = true →
    (s.config.rangePolicy = .fault → exec (.put7Oor d) s = .next { s with sp := { s.sp with err := true } })
    ∧ (s.config.rangePolicy = .mask → exec (.put7Oor d) s = exec (.put7 d) s)
    ∧ (s.config.rangePolicy = .raw → s.sp.phase = 0#3 →
        exec (.put7Oor d) s = .next { s with sp := { s.sp with phase := 1#3, prev := BitVec.ofNat 8 (128 + d.toNat) } })
    ∧ (s.config.rangePolicy = .raw → s.sp.phase ≠ 0#3 →
        exec (.put7Oor d) s = .next
          { s with
            sp :=
              { s.sp with
                phase := if s.sp.phase = 7#3 then 0#3 else s.sp.phase + 1#3
                prev := if s.sp.phase = 7#3 then 0#8 else BitVec.ofNat 8 (128 + d.toNat)
                pend := [⟨false, (s.sp.prev >>> (s.sp.phase.toNat - 1))
                  ||| (BitVec.ofNat 8 (128 + d.toNat) <<< (8 - s.sp.phase.toNat))⟩] } })

/-- 40 R90, R91: END7 emits the last octet of a partial block if there is one, even when it is zero, then END, and leaves
`(phase, prev) = (0, 0)`. -/
def Obligations.End7FlushesBlock : Prop :=
  ∀ (x : Byte) (s : State), canAccept s .sp = true →
    exec (.end7 x) s = .next
      { s with
        sp :=
          { s.sp with
            phase := 0#3
            prev := 0#8
            pend :=
              if s.sp.phase = 0#3 then [⟨true, 0#8⟩]
              else [⟨false, s.sp.prev >>> (s.sp.phase.toNat - 1)⟩, ⟨true, 0#8⟩] } }

/-- 40 R92: how many tokens each SP token emits. -/
def Obligations.PackerOutputBound : Prop :=
  ∀ (s : State), canAccept s .sp = true →
    (∀ d, ∃ t, exec (.put7 d) s = .next t ∧ t.sp.pend.length = if s.sp.phase = 0#3 then 0 else 1)
    ∧ (∀ d, ∃ t, exec (.put7Oor d) s = .next t ∧
        t.sp.pend.length = if s.config.rangePolicy = .fault ∨ s.sp.phase = 0#3 then 0 else 1)
    ∧ (∀ x, ∃ t, exec (.end7 x) s = .next t ∧ t.sp.pend.length = if s.sp.phase = 0#3 then 1 else 2)

/-! ### The tokens of SU -/

/-- 41 R106: PUT8 at phase 0 emits the low 7 bits of the octet. -/
def Obligations.Put8OpensSequence : Prop :=
  ∀ (y : Byte) (s : State), canAccept s .su = true → s.su.phase = 0#3 →
    exec (.put8 y) s = .next { s with su := ⟨1#3, y, [⟨false, y &&& 127#8⟩]⟩ }

/-- 41 R107, R108: PUT8 at phase q, 1 to 6, emits septet q of the block and goes to phase q + 1. -/
def Obligations.Put8CompletesSeptet : Prop :=
  ∀ (y : Byte) (s : State), canAccept s .su = true → s.su.phase ≠ 0#3 → s.su.phase ≠ 7#3 →
    exec (.put8 y) s = .next
      { s with
        su := ⟨s.su.phase + 1#3, y,
          [⟨false, (s.su.prev >>> (8 - s.su.phase.toNat)) ||| ((y <<< s.su.phase.toNat) &&& 127#8)⟩]⟩ }

/-- 41 R109: PUT8 at phase 7 emits the held septet, zero or not, then the first septet of the new block. -/
def Obligations.Put8ReleasesHeldSeptet : Prop :=
  ∀ (y : Byte) (s : State), canAccept s .su = true → s.su.phase = 7#3 →
    exec (.put8 y) s = .next
      { s with su := ⟨1#3, y, [⟨false, s.su.prev >>> 1⟩, ⟨false, y &&& 127#8⟩]⟩ }

/-- 41 R110: END8 at phases 0 to 6 emits END alone; the waiting bits of `prev` are dropped. -/
def Obligations.End8DropsPartialBits : Prop :=
  ∀ (x : Byte) (s : State), canAccept s .su = true → s.su.phase ≠ 7#3 →
    exec (.end8 x) s = .next { s with su := ⟨0#3, 0#8, [⟨true, 0#8⟩]⟩ }

/-- 41 R111: END8 at phase 7 emits the held septet only if it is not zero, then END. -/
def Obligations.End8SuppressesZeroSeptet : Prop :=
  ∀ (x : Byte) (s : State), canAccept s .su = true → s.su.phase = 7#3 →
    exec (.end8 x) s = .next
      { s with
        su := ⟨0#3, 0#8,
          if s.su.prev >>> 1 = 0#8 then [⟨true, 0#8⟩] else [⟨false, s.su.prev >>> 1⟩, ⟨true, 0#8⟩]⟩ }

/-! ### The codec's laws -/

/-- 20 R43: packing keeps every bit of a block at its number: bit i of septet j is bit (7j + i) mod 8 of octet
(7j + i) / 8. -/
def Obligations.PackKeepsBitNumbers : Prop :=
  ∀ (a b c d e f g h : Byte), allSeptets [a, b, c, d, e, f, g, h] = true →
    ∀ j i : Nat, j < 8 → i < 7 →
      ((packBlock8 a b c d e f g h).getD ((7 * j + i) / 8) 0#8).getLsbD ((7 * j + i) % 8)
        = ([a, b, c, d, e, f, g, h].getD j 0#8).getLsbD i

/-- 42 R131: a full block is packed without loss, and back: 56 bits to 56 bits both ways. -/
def Obligations.FullBlocksLoseNothing : Prop :=
  (∀ (a b c d e f g h : Byte), allSeptets [a, b, c, d, e, f, g, h] = true →
    match packBlock8 a b c d e f g h with
    | [p, q, r, s, t, u, v] => unpackBlock7 p q r s t u v = [a, b, c, d, e, f, g, h]
    | _ => False)
  ∧ (∀ (a b c d e f g : Byte),
    match unpackBlock7 a b c d e f g with
    | [p, q, r, s, t, u, v, w] => packBlock8 p q r s t u v w = [a, b, c, d, e, f, g]
    | _ => False)

/-- 42 R120: the length of `pack`, in both its forms. -/
def Obligations.PackLength : Prop :=
  ∀ s : List Byte,
    (pack s).length = 7 * (s.length / 8) + s.length % 8 ∧ (pack s).length = (7 * s.length + 7) / 8

/-- 42 R121: the length of `unpack`. -/
def Obligations.UnpackLength : Prop :=
  ∀ o : List Byte,
    (o.length % 7 ≠ 0 → (unpack o).length = 8 * (o.length / 7) + o.length % 7)
    ∧ (o.length = 0 → (unpack o).length = 0)
    ∧ (o.length % 7 = 0 → o.length ≠ 0 →
        (unpack o).length =
          if (o.getLastD 0#8) >>> 1 = 0#8 then 8 * (o.length / 7) - 1 else 8 * (o.length / 7))

/-- 40 R85: 8q + 7 septets, and the same followed by a zero, pack to the same octets. -/
def Obligations.TrailingZeroPacksAlike : Prop :=
  ∀ s : List Byte, allSeptets s = true → s.length % 8 = 7 → pack (s ++ [0#8]) = pack s

/-- 42 R122: the round trip, exactly: it fails for the sequences of 8n septets, n at least 1, that end in zero, and for
no other. -/
def Obligations.RoundTripExactly : Prop :=
  ∀ s : List Byte, allSeptets s = true →
    (unpack (pack s) = s ↔ ¬ (8 ≤ s.length ∧ s.length % 8 = 0 ∧ s.getLast? = some 0#8))

/-- 42 R123: where the round trip fails, exactly the last element is dropped, and the sequence packs as it does without
that element. -/
def Obligations.RoundTripDropsOneZero : Prop :=
  ∀ s : List Byte, allSeptets s = true → 8 ≤ s.length → s.length % 8 = 0 → s.getLast? = some 0#8 →
    unpack (pack s) = s.dropLast ∧ unpack (pack s) ≠ s ∧ pack s.dropLast = pack s

/-- 42 R125, R126: the empty and the one-element sequences. -/
def Obligations.ShortSequences : Prop :=
  pack [] = [] ∧ unpack [] = []
  ∧ (∀ a : Byte, isSeptet a = true → pack [a] = [a])
  ∧ (∀ a : Byte, unpack [a] = [a &&& 127#8])

/-- 42 R132: every septet `unpack` gives is at most 127. -/
def Obligations.UnpackGivesSeptets : Prop :=
  ∀ o : List Byte, allSeptets (unpack o) = true

/-- 42 R133: the other composition holds unless a final partial group has dropped bits that are not zero. -/
def Obligations.UnpackThenPackExactly : Prop :=
  ∀ o : List Byte,
    (pack (unpack o) = o ↔
      o.length % 7 = 0 ∨ (o.getLastD 0#8) >>> (8 - o.length % 7) = 0#8)

/-- 40 R82: a partial block of k septets gives exactly k octets: each septet with its successor, and the last alone. -/
def Obligations.PartialBlockOctets : Prop :=
  ∀ s : List Byte, 1 ≤ s.length → s.length ≤ 7 →
    (pack s).length = s.length
    ∧ (∀ j : Nat, j + 1 < s.length →
        (pack s).getD j 0#8 = ((s.getD j 0#8) >>> j) ||| ((s.getD (j + 1) 0#8) <<< (7 - j)))
    ∧ (pack s).getD (s.length - 1) 0#8 = (s.getD (s.length - 1) 0#8) >>> (s.length - 1)

/-- 41 R102: a partial group of k octets gives exactly the first k septets of the block formulas; the top k bits of the
last octet reach none of them. -/
def Obligations.PartialGroupSeptets : Prop :=
  ∀ o : List Byte, 1 ≤ o.length → o.length ≤ 6 →
    (unpack o).length = o.length
    ∧ (unpack o).getD 0 0#8 = (o.getD 0 0#8) &&& 127#8
    ∧ (∀ j : Nat, 1 ≤ j → j < o.length →
        (unpack o).getD j 0#8 = ((o.getD (j - 1) 0#8) >>> (8 - j)) ||| (((o.getD j 0#8) <<< j) &&& 127#8))

/-- 40 R84, 20 R46: blocks are aligned to the start of the sequence and independent. -/
def Obligations.PackBlocksAreIndependent : Prop :=
  ∀ xs ys : List Byte, xs.length % 8 = 0 → pack (xs ++ ys) = pack xs ++ pack ys

/-- 41 R104, R105: a block of 7 octets followed by at least one more gives all 8 septets, the 8th even when it is zero; the
same block at the end of the sequence drops it exactly when it is zero. -/
def Obligations.ZeroSuppressionAtTheEndOnly : Prop :=
  ∀ (a b c d e f g : Byte),
    (∀ (y : Byte) (more : List Byte),
      unpack (a :: b :: c :: d :: e :: f :: g :: y :: more)
        = unpackFirst7 a b c d e f g ++ [g >>> 1] ++ unpack (y :: more))
    ∧ unpack [a, b, c, d, e, f, g]
        = unpackFirst7 a b c d e f g ++ (if g >>> 1 = 0#8 then [] else [g >>> 1])

/-- 42 R129, R130: the two ORed parts of a formula are disjoint, for septets in SP and for all octets in SU, so OR is
addition; and SU's result is at most 127. -/
def Obligations.CombinedPartsAreDisjoint : Prop :=
  (∀ (p : Nat) (prev x : Byte), 1 ≤ p → p ≤ 7 → isSeptet prev = true →
    octetFormed p prev x = BitVec.ofNat 8 ((prev.toNat >>> (p - 1)) + (x.toNat <<< (8 - p))))
  ∧ (∀ (q : Nat) (prev y : Byte), 1 ≤ q → q ≤ 6 →
    (septetFormed q prev y).toNat = (prev.toNat >>> (8 - q)) + ((y.toNat <<< q) % 128)
    ∧ isSeptet (septetFormed q prev y) = true)

/-! ### The fault -/

/-- 60 R140, R142: a step raises `err` exactly when SP accepts, from its producer or from SU's port, a data token with
`data[7] = 1` under `RANGE_POLICY = fault`. -/
def Obligations.ErrRisesByDomainErrorOnly : Prop :=
  ∀ s t : State, step s = .next t → s.sp.err = false →
    (t.sp.err = true ↔
      s.config.rangePolicy = .fault ∧ canAccept s .sp = true ∧
      ∃ (tok : Token) (d : Septet) (e : Event) (rest : List Event),
        decodeToken .sp tok = .put7Oor d ∧ s.schedule = e :: rest ∧
        ((e = .unit .sp ∧ s.config.suToSp = false ∧ s.spPort.offer = some tok) ∨
         (e = .consumer .su ∧ s.config.suToSp = true ∧ s.suPort.wasReset = true ∧ s.suPort.rst = false ∧
            s.su.pend.head? = some tok)))

/-- 10 R23, 60 R145: nothing but a reset of SP clears `err`. -/
def Obligations.ErrFallsByResetOnly : Prop :=
  ∀ s t : State, step s = .next t → s.sp.err = true → t.sp.err = false →
    ∃ (e : Event) (rest : List Event), s.schedule = e :: rest ∧ resetsUnit .sp e = true

/-- 60 R143, R153: over any run in which the host does not reset it, a faulted SP keeps its registers, accepts no token and
emits none, while the tokens in `pend` may still be delivered. -/
def Obligations.FaultedPackerIsStuck : Prop :=
  ∀ (k : Nat) (s t : State), s.sp.err = true → noReset .sp s = true →
    Sys2Proof.core.run k s = .next t →
    t.sp.err = true ∧ blockOf t .sp = blockOf s .sp ∧ streamLeft t .sp = streamLeft s .sp
    ∧ emittedAll t .sp = emittedAll s .sp

/-- 60 R144: the fault is precise. After whole sequences, a well-formed prefix `xs` of another, and a bad byte, a run that
has ended has delivered the results of the whole sequences and the octets `xs` completes, without the closing octet of a
partial block and without END; nothing after the bad byte was accepted. -/
def Obligations.FaultIsPrecise : Prop :=
  ∀ (k : Nat) (s t : State) (xss : List (List Byte)) (xs : List Byte) (d : Septet) (after : List Instr),
    s.config.rangePolicy = .fault → s.config.suToSp = false → s.spPort.wasReset = true →
    s.sp = Packer.afterReset → noReset .sp s = true →
    (∀ ys ∈ xss, allSeptets ys = true) → allSeptets xs = true →
    streamLeft s .sp = tokensOf (xss.flatMap packProgram ++ xs.map putByte ++ .put7Oor d :: after) →
    Sys2Proof.core.run k s = .next t → ended t .sp = true →
    t.sp.err = true ∧ streamLeft t .sp = tokensOf after
    ∧ t.spPort.output = s.spPort.output ++ xss.flatMap (fun ys => closedOutput (pack ys))
        ++ ((pack xs).take (xs.length - (xs.length + 7) / 8)).map Token.ofData

/-! ### Handshake, agents, step -/

/-- 70 R176 a: when a unit moves, its producer offers a token and the unit accepts, the step is `exec` of the decoded
instruction, the token taken off the port and the move off the schedule (the schedule is the model's, log 4). -/
def Obligations.StepRunsTheOfferedToken : Prop :=
  ∀ (s : State) (u : UnitId) (tok : Token) (rest : List Event),
    s.schedule = .unit u :: rest → fedByPeer s u = false → (portOf s u).offer = some tok → canAccept s u = true →
    step s = exec (decodeToken u tok) (setPort { s with schedule := rest } u { portOf s u with offer := none })

/-- 60 R150, 70 R176: on a wired connection the same holds of the token at the head of the sender's `pend`, which joins
the sender's output stream (that it joins it is the model's choice, log 15). -/
def Obligations.StepRunsTheLinkedToken : Prop :=
  ∀ (s : State) (u : UnitId) (tok : Token) (q : List Token) (rest : List Event),
    s.schedule = .consumer u :: rest → fedByPeer s u.peer = true →
    (portOf s u).wasReset = true → (portOf s u).rst = false → pendOf s u = tok :: q → canAccept s u.peer = true →
    step s = exec (decodeToken u.peer tok)
      (setPort (setPend { s with schedule := rest } u q) u { portOf s u with output := (portOf s u).output ++ [tok] })

/-- The host's question of the table: the word's instruction, as SP reads it, is what the next step runs. The reading and the placing are the model's choice (log 12). -/
def Obligations.FetchedWordIsRun : Prop :=
  ∀ (s : State) (nbits w : Nat) (i : Instr), canAccept s .sp = true → decodeTableWord nbits w = some i →
    step (s.withFetchWord nbits w) = exec i
      { s with config := { s.config with suToSp := false }, spPort := { s.spPort with offer := none } }

/-- 70 R175, R176: the moves that run no rule. A consumer takes the head of `pend`; a producer with a free port offers its
next token; a unit with nothing offered, and a machine with nobody scheduled, stay as they are (log 4). -/
def Obligations.OtherAgentsMove : Prop :=
  ∀ (s : State) (u : UnitId) (rest : List Event),
    (∀ (tok : Token) (q : List Token), s.schedule = .consumer u :: rest → fedByPeer s u.peer = false →
      (portOf s u).wasReset = true → (portOf s u).rst = false → pendOf s u = tok :: q →
      step s = .next (setPort (setPend { s with schedule := rest } u q) u
        { portOf s u with output := (portOf s u).output ++ [tok] }))
    ∧ (∀ (tok : Token) (more : List Token), s.schedule = .producer u :: rest → fedByPeer s u = false →
      (portOf s u).offer = none → (portOf s u).input = tok :: more →
      step s = .next (setPort { s with schedule := rest } u { portOf s u with offer := some tok, input := more }))
    ∧ (s.schedule = .unit u :: rest → (portOf s u).offer = none → step s = .next { s with schedule := rest })
    ∧ (s.schedule = [] → step s = .next s)

/-- 70 R175, 20 R49, R51: one step at one input port. What the unit has still to accept stays, or loses its first token
to the unit, which then could accept; a token on offer stays until that transfer. -/
def Obligations.InputIsTakenInOrder : Prop :=
  ∀ (s t : State) (u : UnitId), step s = .next t →
    (streamLeft t u = streamLeft s u ∧ (∀ tok, (portOf s u).offer = some tok → (portOf t u).offer = some tok))
    ∨ (∃ tok rest, (portOf s u).offer = some tok ∧ streamLeft s u = tok :: streamLeft t u ∧ canAccept s u = true
        ∧ s.schedule = .unit u :: rest)

/-- 20 R51, 10 R24, R29: one step at one output port, in which the host does not reset the unit. What the unit has
emitted only grows at its end, by at most two tokens, and only if the unit could accept; what has been delivered grows by
the head of `pend` or not at all. -/
def Obligations.OutputIsDeliveredInOrder : Prop :=
  ∀ (s t : State) (u : UnitId), step s = .next t → (s.schedule.take 1).all (fun e => !resetsUnit u e) = true →
    (∃ out : List Token, emittedAll t u = emittedAll s u ++ out ∧ out.length ≤ 2 ∧ (out ≠ [] → canAccept s u = true))
    ∧ ((portOf t u).output = (portOf s u).output
        ∨ ∃ tok, (pendOf s u).head? = some tok ∧ (portOf t u).output = (portOf s u).output ++ [tok])

/-- 70 R160, R161: while `rst` is held no token is transferred on either port of the unit. -/
def Obligations.HeldResetStopsTransfers : Prop :=
  ∀ (s t : State) (u : UnitId), step s = .next t → (portOf s u).rst = true →
    streamLeft t u = streamLeft s u ∧ (portOf t u).output = (portOf s u).output

/-- 70 R175, 93 U7: a producer that gives up an offered token has no move; the refusal's name is the model's (log 10). -/
def Obligations.BrokenHandshakeHasNoMove : Prop :=
  ∀ (s : State) (u : UnitId) (tok : Token) (rest : List Event),
    s.schedule = .withdraw u :: rest → (portOf s u).offer = some tok → step s = .refused (.handshakeBroken u)

/-- 70 R175: the pins. Of a unit that has been reset: `in_ready` needs an empty `pend`, `rst = 0` and `err = 0`;
`out_valid` needs tokens in `pend` and `rst = 0`, and then the word shown is the head of `pend`; the two are never 1
together. Of a unit that has not been reset, of which the spec says nothing, all three are free values: the model's choice
(log 17). On a wired connection `in_valid` is the sender's `out_valid`, reset or not. -/
def Obligations.PinsShowTheQueue : Prop :=
  ∀ (s : State) (u : UnitId) (moment : Nat),
    ((portOf s u).wasReset = true →
      (inReady s u moment = true → pendOf s u = [] ∧ (portOf s u).rst = false ∧ errOf s u = false)
      ∧ (outValid s u moment = true →
          (portOf s u).rst = false ∧ ∃ tok q, pendOf s u = tok :: q ∧ outWord s u moment = tok.toWord)
      ∧ ¬ (inReady s u moment = true ∧ outValid s u moment = true))
    ∧ ((portOf s u).wasReset = false →
      inReady s u moment = Config.freeInReady u moment ∧ outValid s u moment = Config.freeOutValid u moment
      ∧ outWord s u moment = Config.freeOut u moment)
    ∧ (fedByPeer s u = true → inValid s u moment = outValid s u.peer moment)

/-- 10 R25: `RANGE_POLICY` is fixed when the hardware is built; no run changes it, nor (the model's choice, log 3) the
wiring. -/
def Obligations.BuildNeverChanges : Prop :=
  ∀ (k : Nat) (s t : State), Sys2Proof.core.run k s = .next t → t.config = s.config

/-! ### Runs -/

/-- 40 R89, R91: SP computes `pack`. From its reset state, for any sequences one after the other, under every policy and in
any order of the agents' moves in which the host does not reset SP: when the run has ended, the consumer has the results of
`pack` in order, each closed by END, and SP is in its reset state. Under `fault` the sequences are septets. -/
def Obligations.PackerComputesPack : Prop :=
  ∀ (k : Nat) (s t : State) (xss : List (List Byte)),
    s.config.suToSp = false → s.spPort.wasReset = true → s.sp = Packer.afterReset → noReset .sp s = true →
    (s.config.rangePolicy = .fault → ∀ xs ∈ xss, allSeptets xs = true) →
    streamLeft s .sp = tokensOf (xss.flatMap packProgram) →
    Sys2Proof.core.run k s = .next t → ended t .sp = true →
    t.sp = Packer.afterReset
    ∧ t.spPort.output = s.spPort.output
        ++ xss.flatMap (fun xs => closedOutput (pack (xs.map (underPolicy s.config.rangePolicy))))

/-- 41 R112: SU computes `unpack`, in the same sense; and how many tokens each SU token emits. -/
def Obligations.UnpackerComputesUnpack : Prop :=
  (∀ (k : Nat) (s t : State) (yss : List (List Byte)),
    s.config.spToSu = false → s.suPort.wasReset = true → s.su = Unpacker.afterReset → noReset .su s = true →
    streamLeft s .su = tokensOf (yss.flatMap unpackProgram) →
    Sys2Proof.core.run k s = .next t → ended t .su = true →
    t.su = Unpacker.afterReset
    ∧ t.suPort.output = s.suPort.output ++ yss.flatMap (fun ys => closedOutput (unpack ys)))
  ∧ (∀ s : State, canAccept s .su = true →
    (∀ y, ∃ t, exec (.put8 y) s = .next t ∧ t.su.pend.length = if s.su.phase = 7#3 then 2 else 1)
    ∧ (∀ x, ∃ t, exec (.end8 x) s = .next t ∧
        (s.su.phase ≠ 7#3 → t.su.pend.length = 1) ∧ (t.su.pend.length = 1 ∨ t.su.pend.length = 2)))

/-- 60 R150, 42 R122: the chain SP then SU computes `unpack (pack s)` of each sequence, so that it shows the round trip and
its failure. -/
def Obligations.ChainComputesRoundTrip : Prop :=
  ∀ (k : Nat) (s t : State) (xss : List (List Byte)),
    s.config.spToSu = true → s.config.suToSp = false →
    s.spPort.wasReset = true → s.suPort.wasReset = true →
    s.sp = Packer.afterReset → s.su = Unpacker.afterReset → noReset .sp s = true → noReset .su s = true →
    (∀ xs ∈ xss, allSeptets xs = true) →
    streamLeft s .sp = tokensOf (xss.flatMap packProgram) →
    Sys2Proof.core.run k s = .next t → ended t .sp = true → (pendOf t .su).isEmpty = true →
    t.suPort.output = s.suPort.output ++ xss.flatMap (fun xs => closedOutput (unpack (pack xs)))

/-- 10 R32: timing does not matter. Two runs of one unit from equal registers, in which the host does not reset it, that
accept the same tokens of its own input stream emit the same tokens and end with the same registers, whatever the order of
the moves and whatever the other unit does. -/
def Obligations.OutputDependsOnInputAlone : Prop :=
  ∀ (u : UnitId) (k k' : Nat) (s s' t t' : State) (accepted : List Token),
    s.config.rangePolicy = s'.config.rangePolicy → fedByPeer s u = false → fedByPeer s' u = false →
    blockOf s u = blockOf s' u → errOf s u = errOf s' u → pendOf s u = pendOf s' u →
    noReset u s = true → noReset u s' = true →
    Sys2Proof.core.run k s = .next t → Sys2Proof.core.run k' s' = .next t' →
    streamLeft s u = accepted ++ streamLeft t u → streamLeft s' u = accepted ++ streamLeft t' u →
    blockOf t u = blockOf t' u ∧ errOf t u = errOf t' u
    ∧ ∃ out, emittedAll t u = emittedAll s u ++ out ∧ emittedAll t' u = emittedAll s' u ++ out

/-- 10 R20, 60 R149: unwired units share nothing. Two machines that agree on one unit, its port, the build and the
schedule agree on them after any number of steps, whatever the other unit holds. -/
def Obligations.UnwiredUnitsShareNothing : Prop :=
  ∀ (k : Nat) (s s' t t' : State),
    s.config = s'.config → s.config.spToSu = false → s.config.suToSp = false → s.schedule = s'.schedule →
    Sys2Proof.core.run k s = .next t → Sys2Proof.core.run k s' = .next t' →
    (s.sp = s'.sp → s.spPort = s'.spPort → t.sp = t'.sp ∧ t.spPort = t'.spPort)
    ∧ (s.su = s'.su → s.suPort = s'.suPort → t.su = t'.su ∧ t.suPort = t'.suPort)

/-- 70 R165: until END is sent, what a unit has emitted is a strict prefix of the finished output. -/
def Obligations.OpenSequenceGivesPrefix : Prop :=
  ∀ (k : Nat) (s t : State) (xs : List Byte), Sys2Proof.core.run k s = .next t →
    (s.config.suToSp = false → s.spPort.wasReset = true → s.sp = Packer.afterReset → noReset .sp s = true →
      allSeptets xs = true → streamLeft s .sp = tokensOf (xs.map putByte) →
      ∃ out, emittedAll t .sp = s.spPort.output ++ out ∧ out <+: closedOutput (pack xs) ∧ out ≠ closedOutput (pack xs))
    ∧ (s.config.spToSu = false → s.suPort.wasReset = true → s.su = Unpacker.afterReset → noReset .su s = true →
      streamLeft s .su = tokensOf (xs.map Instr.put8) →
      ∃ out, emittedAll t .su = s.suPort.output ++ out ∧ out <+: closedOutput (unpack xs)
        ∧ out ≠ closedOutput (unpack xs))

/-- 70 R173, R177: with a fair producer, unit and consumer a run ends: `n` rounds are enough for `n` tokens, from any
registers with `pend` empty. The schedule that says so is the model's (log 4). -/
def Obligations.FairRunEnds : Prop :=
  ∀ (u : UnitId) (n : Nat) (s : State),
    s.schedule = fairSchedule u n → s.config.spToSu = false → s.config.suToSp = false →
    (portOf s u).wasReset = true → (portOf s u).rst = false → pendOf s u = [] → (streamLeft s u).length ≤ n →
    ∃ t, Sys2Proof.core.run (4 * n) s = .next t ∧ t.schedule = [] ∧ ended t u = true

/-- 70 R177, 10 R30: a run from reset that has ended with `err = 0` and whose stream was empty or ended with END leaves the
unit in its reset state. -/
def Obligations.FinalRunsAreAtReset : Prop :=
  ∀ (k : Nat) (s t : State) (is : List Instr) (u : UnitId),
    fedByPeer s u = false → (portOf s u).wasReset = true → atReset s u = true → noReset u s = true →
    wellFormedStream u is = true → streamLeft s u = tokensOf is →
    Sys2Proof.core.run k s = .next t → ended t u = true → errOf t u = false → closedStream is = true →
    atReset t u = true

/-! ### The invariant -/

/-- The invariant holds at reset. -/
def Obligations.ResetMeetsTheInvariant : Prop := MachineInv State.reset

/-- 10 R22, R24, R30, 42 R132: every step from a state that meets the invariant, reachable or not, leaves one. -/
def Obligations.StepKeepsTheInvariant : Prop :=
  ∀ s t : State, MachineInv s → step s = .next t → MachineInv t

/-- 10 R30: an END token leaves nothing behind. After any run from a state that meets the invariant, in a unit that has
been reset: `phase = 0` means `prev = 0`, and while an END token stands in its queue `(phase, prev) = (0, 0)`. -/
def Obligations.NothingOutlivesASequence : Prop :=
  ∀ (k : Nat) (s t : State) (u : UnitId), MachineInv s → Sys2Proof.core.run k s = .next t → (portOf t u).wasReset = true →
    ((blockOf t u).1 = 0#3 → (blockOf t u).2 = 0#8)
    ∧ (∀ tok ∈ pendOf t u, tok.isEnd = true → blockOf t u = (0#3, 0#8))
end

