-- ==== Sys2Proof/Laws/Bits.lean ====
section
/-! SUPPORT. The bit formulas as operations on 8-bit words: the exact arithmetic of the definitions, cut to its width,
is the shift and the mask of the word itself. -/

namespace Sys2Proof.Machine

theorem cut8_eq (v : Nat) : cut8 v = BitVec.ofNat 8 v := by
  apply BitVec.eq_of_toNat_eq
  have h : v &&& 255 = v % 256 := Nat.and_two_pow_sub_one_eq_mod v 8
  simp [cut8, h]

theorem cut7_eq_mod (v : Nat) : cut7 v = v % 128 := Nat.and_two_pow_sub_one_eq_mod v 7

theorem ofNat_or (a b : Nat) : BitVec.ofNat 8 (a ||| b) = BitVec.ofNat 8 a ||| BitVec.ofNat 8 b := by
  apply BitVec.eq_of_getLsbD_eq; intro i hi
  simp [hi]

theorem ofNat_shiftRight (x : Byte) (n : Nat) : BitVec.ofNat 8 (x.toNat >>> n) = x >>> n := by
  apply BitVec.eq_of_toNat_eq
  simp only [BitVec.toNat_ofNat, BitVec.toNat_ushiftRight]
  exact Nat.mod_eq_of_lt (Nat.lt_of_le_of_lt (Nat.shiftRight_le ..) x.isLt)

theorem ofNat_shiftLeft (x : Byte) (n : Nat) : BitVec.ofNat 8 (x.toNat <<< n) = x <<< n := by
  apply BitVec.eq_of_toNat_eq; simp

theorem ofNat_cut7 (v : Nat) : BitVec.ofNat 8 (cut7 v) = BitVec.ofNat 8 v &&& 127#8 := by
  apply BitVec.eq_of_getLsbD_eq; intro i hi
  simp [cut7, hi]

theorem octetFormed_eq (p : Nat) (prev x : Byte) :
    octetFormed p prev x = (prev >>> (p - 1)) ||| (x <<< (8 - p)) := by
  simp only [octetFormed, cut8_eq, ofNat_or, ofNat_shiftRight, ofNat_shiftLeft]

theorem lastOctet_eq (p : Nat) (prev : Byte) : lastOctet p prev = prev >>> (p - 1) := by
  simp only [lastOctet, cut8_eq, ofNat_shiftRight]

theorem firstSeptet_eq (y : Byte) : firstSeptet y = y &&& 127#8 := by
  simp only [firstSeptet, ofNat_cut7, BitVec.ofNat_toNat, BitVec.setWidth_eq]

theorem septetFormed_eq (q : Nat) (prev y : Byte) :
    septetFormed q prev y = (prev >>> (8 - q)) ||| ((y <<< q) &&& 127#8) := by
  simp only [septetFormed, ofNat_or, ofNat_shiftRight, ofNat_cut7, ofNat_shiftLeft]

theorem heldSeptet_eq (prev : Byte) : heldSeptet prev = prev >>> 1 := ofNat_shiftRight prev 1

theorem outOfRangeByte_eq (d : Septet) : outOfRangeByte d = BitVec.ofNat 8 (128 + d.toNat) := by
  revert d; decide

theorem isSeptet_iff (x : Byte) : isSeptet x = true ↔ x.getLsbD 7 = false := by
  revert x; decide

end Sys2Proof.Machine
end

