-- ==== Sys2Proof/Laws/Codec.lean ====
section
/-! SUPPORT. `pack` and `unpack` by blocks: their equations, their inductions, and their formulas as operations on 8-bit
words. -/

namespace Sys2Proof.Machine

/-! ### Bytes by bits -/

theorem byte_ext {x y : Byte} (h0 : x.getLsbD 0 = y.getLsbD 0) (h1 : x.getLsbD 1 = y.getLsbD 1)
    (h2 : x.getLsbD 2 = y.getLsbD 2) (h3 : x.getLsbD 3 = y.getLsbD 3) (h4 : x.getLsbD 4 = y.getLsbD 4)
    (h5 : x.getLsbD 5 = y.getLsbD 5) (h6 : x.getLsbD 6 = y.getLsbD 6) (h7 : x.getLsbD 7 = y.getLsbD 7) : x = y := by
  apply BitVec.eq_of_getLsbD_eq; intro i hi; interval_cases i <;> assumption

theorem getLsbD_127 (i : Nat) : (127#8).getLsbD i = decide (i < 7) := by
  by_cases h : i < 8
  · interval_cases i <;> decide
  · rw [BitVec.getLsbD_of_ge _ _ (by omega : 8 ≤ i)]; simp; omega

/-! ### The block formulas on words -/

theorem packBlock8_eq (a b c d e f g h : Byte) :
    packBlock8 a b c d e f g h =
      [a ||| b <<< 7, b >>> 1 ||| c <<< 6, c >>> 2 ||| d <<< 5, d >>> 3 ||| e <<< 4, e >>> 4 ||| f <<< 3,
        f >>> 5 ||| g <<< 2, g >>> 6 ||| h <<< 1] := by
  simp [packBlock8, cut8_eq, ofNat_shiftRight, ofNat_shiftLeft]

theorem unpackEighth_eq (g : Byte) : unpackEighth g = g >>> 1 := ofNat_shiftRight g 1

theorem unpackFirst7_eq (a b c d e f g : Byte) :
    unpackFirst7 a b c d e f g =
      [a &&& 127#8, a >>> 7 ||| (b <<< 1 &&& 127#8), b >>> 6 ||| (c <<< 2 &&& 127#8), c >>> 5 ||| (d <<< 3 &&& 127#8),
        d >>> 4 ||| (e <<< 4 &&& 127#8), e >>> 3 ||| (f <<< 5 &&& 127#8), f >>> 2 ||| (g <<< 6 &&& 127#8)] := by
  simp [unpackFirst7, ofNat_cut7, ofNat_shiftRight, ofNat_shiftLeft]

theorem unpackBlock7_eq (a b c d e f g : Byte) :
    unpackBlock7 a b c d e f g = unpackFirst7 a b c d e f g ++ [g >>> 1] := by
  rw [unpackBlock7, unpackEighth_eq]

theorem packPartial_one (j : Nat) (x : Byte) : packPartial j [x] = [x >>> j] := by
  simp [packPartial, cut8_eq, ofNat_shiftRight]

theorem packPartial_cons (j : Nat) (x y : Byte) (r : List Byte) :
    packPartial j (x :: y :: r) = (x >>> j ||| y <<< (7 - j)) :: packPartial (j + 1) (y :: r) := by
  simp [packPartial, cut8_eq, ofNat_shiftRight, ofNat_shiftLeft]

theorem unpackPartial_cons (y : Byte) (r : List Byte) :
    unpackPartial (y :: r) = (y &&& 127#8) :: unpackPartialFrom 1 y r := by
  simp [unpackPartial, ofNat_cut7]

theorem unpackPartialFrom_cons (j : Nat) (x y : Byte) (r : List Byte) :
    unpackPartialFrom j x (y :: r) = (x >>> (8 - j) ||| (y <<< j &&& 127#8)) :: unpackPartialFrom (j + 1) y r := by
  simp [unpackPartialFrom, ofNat_cut7, ofNat_shiftRight, ofNat_shiftLeft]

/-! ### The equations of `pack` and `unpack` -/

theorem pack_cons8 (a b c d e f g h : Byte) (rest : List Byte) :
    pack (a :: b :: c :: d :: e :: f :: g :: h :: rest) = packBlock8 a b c d e f g h ++ pack rest := by
  rw [pack]

theorem pack_short (s : List Byte) (h : s.length < 8) : pack s = packPartial 0 s := by
  rcases s with _ | ⟨a, _ | ⟨b, _ | ⟨c, _ | ⟨d, _ | ⟨e, _ | ⟨f, _ | ⟨g, _ | ⟨x, r⟩⟩⟩⟩⟩⟩⟩⟩ <;>
    first | rfl | (simp at h; omega)

theorem packPartial_length (s : List Byte) : ∀ j, (packPartial j s).length = s.length := by
  induction s with
  | nil => intro j; rfl
  | cons x r ih =>
    intro j
    cases r with
    | nil => rfl
    | cons y r => simp [packPartial, ih]

theorem unpack_final (a b c d e f g : Byte) : unpack [a, b, c, d, e, f, g] = unpackFinal7 a b c d e f g := by rw [unpack]

theorem unpack_cons8 (a b c d e f g h : Byte) (r : List Byte) :
    unpack (a :: b :: c :: d :: e :: f :: g :: h :: r) = unpackBlock7 a b c d e f g ++ unpack (h :: r) := by rw [unpack]

theorem unpack_short (s : List Byte) (h : s.length < 7) : unpack s = unpackPartial s := by
  rcases s with _ | ⟨a, _ | ⟨b, _ | ⟨c, _ | ⟨d, _ | ⟨e, _ | ⟨f, _ | ⟨g, r⟩⟩⟩⟩⟩⟩⟩ <;>
    first | rfl | (simp at h; omega)

theorem unpackPartialFrom_length (s : List Byte) : ∀ j x, (unpackPartialFrom j x s).length = s.length := by
  induction s with
  | nil => intros; rfl
  | cons y r ih => intros; simp [unpackPartialFrom, ih]

theorem unpackPartial_length (s : List Byte) : (unpackPartial s).length = s.length := by
  cases s with
  | nil => rfl
  | cons y r => simp [unpackPartial, unpackPartialFrom_length]

/-! ### Induction by blocks -/

/-- Induction over a septet sequence by full blocks of 8. -/
theorem block8_induct {P : List Byte → Prop} (short : ∀ s, s.length < 8 → P s)
    (step : ∀ a b c d e f g h rest, P rest → P (a :: b :: c :: d :: e :: f :: g :: h :: rest)) : ∀ s, P s
  | a :: b :: c :: d :: e :: f :: g :: h :: rest => step a b c d e f g h rest (block8_induct short step rest)
  | [] => short _ (by simp)
  | [_] => short _ (by simp)
  | [_, _] => short _ (by simp)
  | [_, _, _] => short _ (by simp)
  | [_, _, _, _] => short _ (by simp)
  | [_, _, _, _, _] => short _ (by simp)
  | [_, _, _, _, _, _] => short _ (by simp)
  | [_, _, _, _, _, _, _] => short _ (by simp)

/-- Induction over an octet sequence by blocks of 7, the block that ends the sequence apart. -/
theorem block7_induct {P : List Byte → Prop} (short : ∀ s, s.length < 7 → P s)
    (final : ∀ a b c d e f g, P [a, b, c, d, e, f, g])
    (step : ∀ a b c d e f g h rest, P (h :: rest) → P (a :: b :: c :: d :: e :: f :: g :: h :: rest)) : ∀ s, P s
  | a :: b :: c :: d :: e :: f :: g :: h :: rest =>
    step a b c d e f g h rest (block7_induct short final step (h :: rest))
  | [] => short _ (by simp)
  | [_] => short _ (by simp)
  | [_, _] => short _ (by simp)
  | [_, _, _] => short _ (by simp)
  | [_, _, _, _] => short _ (by simp)
  | [_, _, _, _, _] => short _ (by simp)
  | [_, _, _, _, _, _] => short _ (by simp)
  | [a, b, c, d, e, f, g] => final a b c d e f g

end Sys2Proof.Machine
end

