-- ==== Sys2Proof/Laws/State.lean ====
section
/-! SUPPORT. What each register update and each port view leaves of every field. -/

namespace Sys2Proof.Machine

/-! ### Register updates -/

@[simp] theorem spEmit_phase (t : Token) (p : Packer) : (spEmit t p).phase = p.phase := rfl
@[simp] theorem spEmit_prev (t : Token) (p : Packer) : (spEmit t p).prev = p.prev := rfl
@[simp] theorem spEmit_err (t : Token) (p : Packer) : (spEmit t p).err = p.err := rfl
@[simp] theorem spEmit_pend (t : Token) (p : Packer) : (spEmit t p).pend = p.pend ++ [t] := rfl

@[simp] theorem spSetBlock_phase (f : Phase) (v : Byte) (p : Packer) : (spSetBlock f v p).phase = f := rfl
@[simp] theorem spSetBlock_prev (f : Phase) (v : Byte) (p : Packer) : (spSetBlock f v p).prev = v := rfl
@[simp] theorem spSetBlock_err (f : Phase) (v : Byte) (p : Packer) : (spSetBlock f v p).err = p.err := rfl
@[simp] theorem spSetBlock_pend (f : Phase) (v : Byte) (p : Packer) : (spSetBlock f v p).pend = p.pend := rfl

@[simp] theorem suEmit_phase (t : Token) (p : Unpacker) : (suEmit t p).phase = p.phase := rfl
@[simp] theorem suEmit_prev (t : Token) (p : Unpacker) : (suEmit t p).prev = p.prev := rfl
@[simp] theorem suEmit_pend (t : Token) (p : Unpacker) : (suEmit t p).pend = p.pend ++ [t] := rfl

@[simp] theorem suSetBlock_phase (f : Phase) (v : Byte) (p : Unpacker) : (suSetBlock f v p).phase = f := rfl
@[simp] theorem suSetBlock_prev (f : Phase) (v : Byte) (p : Unpacker) : (suSetBlock f v p).prev = v := rfl
@[simp] theorem suSetBlock_pend (f : Phase) (v : Byte) (p : Unpacker) : (suSetBlock f v p).pend = p.pend := rfl

@[simp] theorem takeDomainError_phase (p : Packer) : (takeDomainError p).phase = p.phase := rfl
@[simp] theorem takeDomainError_prev (p : Packer) : (takeDomainError p).prev = p.prev := rfl
@[simp] theorem takeDomainError_err (p : Packer) : (takeDomainError p).err = true := rfl
@[simp] theorem takeDomainError_pend (p : Packer) : (takeDomainError p).pend = p.pend := rfl

/-! ### Ports and queues by unit -/

@[simp] theorem portOf_setPort (s : State) (u : UnitId) (p : Port) : portOf (setPort s u p) u = p := by
  cases u <;> rfl

@[simp] theorem portOf_setPort_peer (s : State) (u : UnitId) (p : Port) :
    portOf (setPort s u p) u.peer = portOf s u.peer := by cases u <;> rfl

@[simp] theorem setPort_sp (s : State) (u : UnitId) (p : Port) : (setPort s u p).sp = s.sp := by cases u <;> rfl
@[simp] theorem setPort_su (s : State) (u : UnitId) (p : Port) : (setPort s u p).su = s.su := by cases u <;> rfl
@[simp] theorem setPort_config (s : State) (u : UnitId) (p : Port) : (setPort s u p).config = s.config := by
  cases u <;> rfl
@[simp] theorem setPort_schedule (s : State) (u : UnitId) (p : Port) : (setPort s u p).schedule = s.schedule := by
  cases u <;> rfl
@[simp] theorem pendOf_setPort (s : State) (u v : UnitId) (p : Port) : pendOf (setPort s u p) v = pendOf s v := by
  cases u <;> cases v <;> rfl

@[simp] theorem pendOf_setPend (s : State) (u : UnitId) (q : List Token) : pendOf (setPend s u q) u = q := by
  cases u <;> rfl
@[simp] theorem pendOf_setPend_peer (s : State) (u : UnitId) (q : List Token) :
    pendOf (setPend s u q) u.peer = pendOf s u.peer := by cases u <;> rfl
@[simp] theorem portOf_setPend (s : State) (u v : UnitId) (q : List Token) : portOf (setPend s u q) v = portOf s v := by
  cases u <;> cases v <;> rfl
@[simp] theorem setPend_config (s : State) (u : UnitId) (q : List Token) : (setPend s u q).config = s.config := by
  cases u <;> rfl
@[simp] theorem setPend_schedule (s : State) (u : UnitId) (q : List Token) : (setPend s u q).schedule = s.schedule := by
  cases u <;> rfl
@[simp] theorem errOf_setPend (s : State) (u v : UnitId) (q : List Token) : errOf (setPend s u q) v = errOf s v := by
  cases u <;> cases v <;> rfl
@[simp] theorem errOf_setPort (s : State) (u v : UnitId) (p : Port) : errOf (setPort s u p) v = errOf s v := by
  cases u <;> cases v <;> rfl

@[simp] theorem fedByPeer_setPort (s : State) (u v : UnitId) (p : Port) :
    fedByPeer (setPort s u p) v = fedByPeer s v := by cases u <;> cases v <;> rfl
@[simp] theorem fedByPeer_setPend (s : State) (u v : UnitId) (q : List Token) :
    fedByPeer (setPend s u q) v = fedByPeer s v := by cases u <;> cases v <;> rfl

/-! ### The schedule is read by the step alone -/

@[simp] theorem portOf_schedule (s : State) (l : List Event) (u : UnitId) :
    portOf { s with schedule := l } u = portOf s u := by cases u <;> rfl
@[simp] theorem pendOf_schedule (s : State) (l : List Event) (u : UnitId) :
    pendOf { s with schedule := l } u = pendOf s u := by cases u <;> rfl
@[simp] theorem errOf_schedule (s : State) (l : List Event) (u : UnitId) :
    errOf { s with schedule := l } u = errOf s u := by cases u <;> rfl
@[simp] theorem fedByPeer_schedule (s : State) (l : List Event) (u : UnitId) :
    fedByPeer { s with schedule := l } u = fedByPeer s u := by cases u <;> rfl
@[simp] theorem canAccept_schedule (s : State) (l : List Event) (u : UnitId) :
    canAccept { s with schedule := l } u = canAccept s u := by cases u <;> rfl

/-! ### Acceptance -/

/-- Taking a token off an input port changes no condition of acceptance. -/
@[simp] theorem canAccept_takeOffer (s : State) (u v : UnitId) : canAccept (takeOffer u s) v = canAccept s v := by
  cases u <;> cases v <;> rfl

/-- Delivering a token of one unit changes no condition of the other's acceptance. -/
@[simp] theorem canAccept_deliverHead_peer (s : State) (u : UnitId) (t : Token) (q : List Token) :
    canAccept (deliverHead u t q s) u.peer = canAccept s u.peer := by cases u <;> rfl

/-! ### Pins, after and before the first reset -/

theorem inReady_of_wasReset {s : State} {u : UnitId} (h : (portOf s u).wasReset = true) (moment : Nat) :
    inReady s u moment = canAccept s u := by simp [inReady, h]

theorem inReady_of_not_wasReset {s : State} {u : UnitId} (h : (portOf s u).wasReset = false) (moment : Nat) :
    inReady s u moment = Config.freeInReady u moment := by simp [inReady, h]

theorem outValid_of_wasReset {s : State} {u : UnitId} (h : (portOf s u).wasReset = true) (moment : Nat) :
    outValid s u moment = (!(portOf s u).rst && !(pendOf s u).isEmpty) := by simp [outValid, h]

theorem outValid_of_not_wasReset {s : State} {u : UnitId} (h : (portOf s u).wasReset = false) (moment : Nat) :
    outValid s u moment = Config.freeOutValid u moment := by simp [outValid, h]

end Sys2Proof.Machine
end

