-- ==== Sys2Proof/Laws/Ops.lean ====
section
/-! SUPPORT. What presenting a token can do, said once; the effect of each token on its unit's registers; and that an
effect reads nothing of `pend` and appends to it. -/

namespace Sys2Proof.Machine

/-! ### Presenting a token -/

theorem pendOf_of_canAccept {s : State} {u : UnitId} (h : canAccept s u = true) : pendOf s u = [] := by
  simp [canAccept] at h; exact h.1.2

theorem wasReset_of_canAccept {s : State} {u : UnitId} (h : canAccept s u = true) : (portOf s u).wasReset = true := by
  simp [canAccept] at h; exact h.1.1.1

theorem rst_of_canAccept {s : State} {u : UnitId} (h : canAccept s u = true) : (portOf s u).rst = false := by
  simp [canAccept] at h; exact h.1.1.2

theorem errOf_of_canAccept {s : State} {u : UnitId} (h : canAccept s u = true) : errOf s u = false := by
  simp [canAccept] at h; exact h.2

/-- Presenting a token to SP, if it answers a next state: SP took it, or it waits. -/
theorem presentSp_cases {act : Packer → Packer} {s t : State} (h : presentSp act s = .next t) :
    (canAccept s .sp = true ∧ t = { s with sp := act s.sp }) ∨ (canAccept s .sp = false ∧ t = s) := by
  simp only [presentSp] at h
  split at h
  · cases h
  · split at h
    · exact .inl ⟨‹_›, (Host.Outcome.next.inj h).symm⟩
    · exact .inr ⟨Bool.eq_false_iff.2 ‹_›, (Host.Outcome.next.inj h).symm⟩

/-- Presenting a token to SU, if it answers a next state: SU took it, or it waits. -/
theorem presentSu_cases {act : Unpacker → Unpacker} {s t : State} (h : presentSu act s = .next t) :
    (canAccept s .su = true ∧ t = { s with su := act s.su }) ∨ (canAccept s .su = false ∧ t = s) := by
  simp only [presentSu] at h
  split at h
  · cases h
  · split at h
    · exact .inl ⟨‹_›, (Host.Outcome.next.inj h).symm⟩
    · exact .inr ⟨Bool.eq_false_iff.2 ‹_›, (Host.Outcome.next.inj h).symm⟩

theorem presentSp_accepts {act : Packer → Packer} {s : State} (h : canAccept s .sp = true) :
    presentSp act s = .next { s with sp := act s.sp } := by
  have hw : s.spPort.wasReset = true := wasReset_of_canAccept h
  simp [presentSp, h, hw]

theorem presentSu_accepts {act : Unpacker → Unpacker} {s : State} (h : canAccept s .su = true) :
    presentSu act s = .next { s with su := act s.su } := by
  have hw : s.suPort.wasReset = true := wasReset_of_canAccept h
  simp [presentSu, h, hw]

/-! ### The effect of a token on its unit's registers -/

/-- The change an accepted token of SP makes to SP's registers. -/
def spEffect (policy : RangePolicy) (i : Instr) (p : Packer) : Packer :=
  match i with
  | .put7 d => spConsume (septetOperand d) p
  | .put7Oor d =>
    match outOfRangeOperand policy d with
    | none => takeDomainError p
    | some x => spConsume x p
  | .end7 _ => spFinish p
  | .put8 _ => p
  | .end8 _ => p

/-- The change an accepted token of SU makes to SU's registers. -/
def suEffect (i : Instr) (p : Unpacker) : Unpacker :=
  match i with
  | .put7 _ => p
  | .put7Oor _ => p
  | .end7 _ => p
  | .put8 d => suConsume (octetOperand d) p
  | .end8 _ => suFinish p

theorem exec_eq_presentSp {i : Instr} (h : i.port = .sp) (s : State) :
    exec i s = presentSp (spEffect s.config.rangePolicy i) s := by
  cases i <;> first | rfl | cases h

theorem exec_eq_presentSu {i : Instr} (h : i.port = .su) (s : State) :
    exec i s = presentSu (suEffect i) s := by
  cases i <;> first | rfl | cases h

@[simp] theorem port_decodeSp (t : Token) : (decodeSp t).port = .sp := by
  simp only [decodeSp]; split
  · rfl
  · split <;> rfl

@[simp] theorem port_decodeSu (t : Token) : (decodeSu t).port = .su := by
  simp only [decodeSu]; split <;> rfl

@[simp] theorem port_decodeToken (u : UnitId) (t : Token) : (decodeToken u t).port = u := by
  cases u
  · exact port_decodeSp t
  · exact port_decodeSu t

/-! ### Effects append to `pend` and read nothing of it -/

theorem spConsume_append (x : Byte) (p : Packer) (q : List Token) :
    spConsume x { p with pend := q ++ p.pend } = { spConsume x p with pend := q ++ (spConsume x p).pend } := by
  simp only [spConsume, spSetBlock, spEmit]
  split_ifs <;> simp

theorem spFinish_append (p : Packer) (q : List Token) :
    spFinish { p with pend := q ++ p.pend } = { spFinish p with pend := q ++ (spFinish p).pend } := by
  simp only [spFinish, spSetBlock, spEmit]
  split_ifs <;> simp

theorem spEffect_append (policy : RangePolicy) (i : Instr) (p : Packer) (q : List Token) :
    spEffect policy i { p with pend := q ++ p.pend }
      = { spEffect policy i p with pend := q ++ (spEffect policy i p).pend } := by
  cases i with
  | put7 d => exact spConsume_append _ p q
  | put7Oor d =>
    cases policy with
    | fault => rfl
    | mask => exact spConsume_append _ p q
    | raw => exact spConsume_append _ p q
  | end7 x => exact spFinish_append p q
  | put8 d => rfl
  | end8 x => rfl

theorem suConsume_append (y : Byte) (p : Unpacker) (q : List Token) :
    suConsume y { p with pend := q ++ p.pend } = { suConsume y p with pend := q ++ (suConsume y p).pend } := by
  simp only [suConsume, suSetBlock, suEmit]
  split_ifs <;> simp

theorem suFinish_append (p : Unpacker) (q : List Token) :
    suFinish { p with pend := q ++ p.pend } = { suFinish p with pend := q ++ (suFinish p).pend } := by
  simp only [suFinish, suSetBlock, suEmit]
  split_ifs <;> simp

theorem suEffect_append (i : Instr) (p : Unpacker) (q : List Token) :
    suEffect i { p with pend := q ++ p.pend } = { suEffect i p with pend := q ++ (suEffect i p).pend } := by
  cases i with
  | put7 d => rfl
  | put7Oor d => rfl
  | end7 x => rfl
  | put8 d => exact suConsume_append _ p q
  | end8 x => exact suFinish_append p q

/-- A token of SP appends to `pend`. -/
theorem spEffect_pend (policy : RangePolicy) (i : Instr) (p : Packer) :
    (spEffect policy i p).pend = p.pend ++ (spEffect policy i { p with pend := [] }).pend := by
  have h := spEffect_append policy i { p with pend := [] } p.pend
  simp only [List.append_nil] at h
  rw [h]

/-- A token of SU appends to `pend`. -/
theorem suEffect_pend (i : Instr) (p : Unpacker) :
    (suEffect i p).pend = p.pend ++ (suEffect i { p with pend := [] }).pend := by
  have h := suEffect_append i { p with pend := [] } p.pend
  simp only [List.append_nil] at h
  rw [h]

/-- From an empty queue a token of SP leaves at most two. -/
theorem spEffect_pend_length (policy : RangePolicy) (i : Instr) (p : Packer) (h : p.pend = []) :
    (spEffect policy i p).pend.length ≤ 2 := by
  cases i with
  | put7 d => simp only [spEffect, spConsume]; split_ifs <;> simp [h]
  | put7Oor d => cases policy <;> simp only [spEffect, outOfRangeOperand, spConsume] <;> (try split_ifs) <;> simp [h]
  | end7 x => simp only [spEffect, spFinish]; split_ifs <;> simp [h]
  | put8 d => simp [spEffect, h]
  | end8 x => simp [spEffect, h]

/-- From an empty queue a token of SU leaves at most two. -/
theorem suEffect_pend_length (i : Instr) (p : Unpacker) (h : p.pend = []) :
    (suEffect i p).pend.length ≤ 2 := by
  cases i with
  | put7 d => simp [suEffect, h]
  | put7Oor d => simp [suEffect, h]
  | end7 x => simp [suEffect, h]
  | put8 d => simp only [suEffect, suConsume]; split_ifs <;> simp [h]
  | end8 x => simp only [suEffect, suFinish]; split_ifs <;> simp [h]

end Sys2Proof.Machine
end

