-- ==== Sys2Proof/Laws/PerInstr.lean ====
section
/-! SUPPORT. Statements made once for every instruction, one lemma per constructor. -/

namespace Sys2Proof.Laws.RowMatch

/-- The word of an instruction fits the opcode map's row of its mnemonic, and that row belongs to its port (30 R66). -/
def Statement (i : Instr) : Prop :=
  ∀ r ∈ opcodeRows, r.mnemonic = i.mnemonic → encode i &&& r.mask = r.matchVal ∧ r.port = i.port

theorem put7 (d : Septet) : Statement (.put7 d) := by
  revert d; unfold Statement; decide

theorem put7Oor (d : Septet) : Statement (.put7Oor d) := by
  revert d; unfold Statement; decide

theorem end7 (ignored : Byte) : Statement (.end7 ignored) := by
  revert ignored; unfold Statement; decide

theorem put8 (d : Byte) : Statement (.put8 d) := by
  revert d; unfold Statement; decide

theorem end8 (ignored : Byte) : Statement (.end8 ignored) := by
  revert ignored; unfold Statement; decide

end Sys2Proof.Laws.RowMatch
end

