-- ==== Sys2Proof/Laws/Step.lean ====
section
/-! SUPPORT. What one step can do, said once: by agent, and then as seen from one unit, which is reset, stays quiet, or
accepts one token. -/

namespace Sys2Proof.Machine

/-! ### By agent -/

/-- A token that its unit cannot accept: if presenting it answers a next state, nothing changed. -/
theorem exec_waits {u : UnitId} {tok : Token} {s t : State} (hacc : ¬ canAccept s u = true)
    (h : exec (decodeToken u tok) s = .next t) : t = s := by
  cases u with
  | sp =>
    rw [exec_eq_presentSp (port_decodeToken _ _)] at h
    exact (presentSp_cases h).elim (fun hc => absurd hc.1 hacc) (·.2)
  | su =>
    rw [exec_eq_presentSu (port_decodeToken _ _)] at h
    exact (presentSu_cases h).elim (fun hc => absurd hc.1 hacc) (·.2)

/-- A unit's move, if it answers a next state: nothing happens, or an offered token is accepted. -/
theorem unitMove_cases {u : UnitId} {s t : State} (h : unitMove u s = .next t) :
    t = s ∨ ∃ tok, fedByPeer s u = false ∧ (portOf s u).offer = some tok ∧ canAccept s u = true
      ∧ exec (decodeToken u tok) (takeOffer u s) = .next t := by
  simp only [unitMove] at h
  split at h
  · exact .inl (Host.Outcome.next.inj h).symm
  · split at h
    · exact .inl (Host.Outcome.next.inj h).symm
    · rename_i hfed _ tok hoff
      split at h
      · exact .inr ⟨tok, Bool.eq_false_iff.2 hfed, hoff, ‹_›, h⟩
      · exact .inl (exec_waits ‹_› h)

/-- A consumer's move, if it answers a next state: nothing happens, the head of `pend` is delivered, or it is delivered
into the other unit, which accepts it. -/
theorem consumerMove_cases {u : UnitId} {s t : State} (h : consumerMove u s = .next t) :
    t = s ∨ ∃ tok q, (portOf s u).wasReset = true ∧ (portOf s u).rst = false ∧ pendOf s u = tok :: q ∧
      ((fedByPeer s u.peer = false ∧ t = deliverHead u tok q s)
       ∨ (fedByPeer s u.peer = true ∧ canAccept s u.peer = true
          ∧ exec (decodeToken u.peer tok) (deliverHead u tok q s) = .next t)) := by
  simp only [consumerMove] at h
  split at h
  · cases h
  · rename_i hw
    split at h
    · exact .inl (Host.Outcome.next.inj h).symm
    · rename_i hr
      split at h
      · exact .inl (Host.Outcome.next.inj h).symm
      · rename_i tok q hp
        have hw' : (portOf s u).wasReset = true := by simpa using hw
        have hr' : (portOf s u).rst = false := Bool.eq_false_iff.2 hr
        split at h
        · rename_i hfed
          split at h
          · exact .inr ⟨tok, q, hw', hr', hp, .inr ⟨hfed, ‹_›, h⟩⟩
          · exact .inl (exec_waits ‹_› h)
        · rename_i hfed
          exact .inr ⟨tok, q, hw', hr', hp, .inl ⟨Bool.eq_false_iff.2 hfed, (Host.Outcome.next.inj h).symm⟩⟩

/-- A producer's move: nothing, or the next token of its stream goes on the port. -/
theorem producerMove_cases (u : UnitId) (s : State) :
    producerMove u s = s ∨ ∃ tok rest, fedByPeer s u = false ∧ (portOf s u).offer = none ∧ (portOf s u).input = tok :: rest
      ∧ producerMove u s = setPort s u { portOf s u with offer := some tok, input := rest } := by
  simp only [producerMove]
  split
  · exact .inl rfl
  · rename_i hfed
    split
    · rename_i tok rest ho hi
      exact .inr ⟨tok, rest, Bool.eq_false_iff.2 hfed, ho, hi, rfl⟩
    · exact .inl rfl

/-! ### As seen from one unit -/

/-- Nothing happens at unit `u` but that its producer may offer and its consumer may take: its registers stay, and so
does what it has emitted and what it has still to accept. -/
structure Quiet (u : UnitId) (s t : State) : Prop where
  block : blockOf t u = blockOf s u
  err : errOf t u = errOf s u
  emitted : emittedAll t u = emittedAll s u
  left : streamLeft t u = streamLeft s u
  offer : ∀ tok, (portOf s u).offer = some tok → (portOf t u).offer = some tok
  wasReset : (portOf t u).wasReset = (portOf s u).wasReset
  rst : (portOf t u).rst = true → (portOf s u).rst = true
  delivered : ((portOf t u).output = (portOf s u).output ∧ pendOf t u = pendOf s u)
    ∨ ∃ tok, ((portOf s u).wasReset = true ∧ (portOf s u).rst = false) ∧ pendOf s u = tok :: pendOf t u
        ∧ (portOf t u).output = (portOf s u).output ++ [tok]

theorem Quiet.refl (u : UnitId) (s : State) (l : List Event) : Quiet u s { s with schedule := l } := by
  cases u <;> exact ⟨rfl, rfl, rfl, rfl, fun _ h => h, rfl, id, .inl ⟨rfl, rfl⟩⟩

/-- Unit `u` accepts token `tok`: the registers before and after are related by the token's effect, and nothing is
delivered in the same step. -/
structure Accepts (u : UnitId) (tok : Token) (s t : State) : Prop where
  can : canAccept s u = true
  regs : match u with
    | .sp => t.sp = spEffect s.config.rangePolicy (decodeSp tok) s.sp
    | .su => t.su = suEffect (decodeSu tok) s.su
  output : (portOf t u).output = (portOf s u).output
  pins : (portOf t u).rst = (portOf s u).rst ∧ (portOf t u).wasReset = (portOf s u).wasReset
  source : (fedByPeer s u = false ∧ (portOf s u).offer = some tok ∧ portOf t u = { portOf s u with offer := none }
        ∧ ∃ rest, s.schedule = .unit u :: rest)
    ∨ (fedByPeer s u = true ∧ portOf t u = portOf s u
        ∧ (portOf s u.peer).wasReset = true ∧ (portOf s u.peer).rst = false
        ∧ pendOf s u.peer = tok :: pendOf t u.peer
        ∧ (portOf t u.peer).output = (portOf s u.peer).output ++ [tok]
        ∧ ∃ rest, s.schedule = .consumer u.peer :: rest)

/-- The scheduled move resets unit `u`. -/
structure IsReset (u : UnitId) (s t : State) : Prop where
  head : ∃ e rest, s.schedule = e :: rest ∧ resetsUnit u e = true
  regs : atReset t u = true
  port : ∃ level, portOf t u = { portOf s u with rst := level, wasReset := true }

/-- What a step leaves of the build and the schedule. -/
theorem exec_frame {i : Instr} {s t : State} (h : exec i s = .next t) :
    t.config = s.config ∧ t.schedule = s.schedule ∧ t.spPort = s.spPort ∧ t.suPort = s.suPort
    ∧ (i.port = .sp → t.su = s.su) ∧ (i.port = .su → t.sp = s.sp) := by
  cases hp : i.port with
  | sp =>
    rw [exec_eq_presentSp hp] at h
    rcases presentSp_cases h with ⟨-, rfl⟩ | ⟨-, rfl⟩ <;> simp
  | su =>
    rw [exec_eq_presentSu hp] at h
    rcases presentSu_cases h with ⟨-, rfl⟩ | ⟨-, rfl⟩ <;> simp

/-- An accepted token at its unit. -/
theorem exec_accepts {u : UnitId} {tok : Token} {s t : State} (hc : canAccept s u = true)
    (h : exec (decodeToken u tok) s = .next t) :
    match u with
    | .sp => t = { s with sp := spEffect s.config.rangePolicy (decodeSp tok) s.sp }
    | .su => t = { s with su := suEffect (decodeSu tok) s.su } := by
  cases u with
  | sp =>
    rw [exec_eq_presentSp (port_decodeToken _ _), presentSp_accepts hc] at h
    exact (Host.Outcome.next.inj h).symm
  | su =>
    rw [exec_eq_presentSu (port_decodeToken _ _), presentSu_accepts hc] at h
    exact (Host.Outcome.next.inj h).symm

theorem step_config {s t : State} (h : step s = .next t) : t.config = s.config := by
  simp only [step, nextMove] at h
  split at h
  · cases h; rfl
  · rename_i e rest hs
    cases e with
    | producer u =>
      cases h
      rcases producerMove_cases u { s with schedule := rest } with hp | ⟨_, _, -, -, -, hp⟩
      · rw [hp]
      · rw [hp]; simp
    | unit u =>
      rcases unitMove_cases h with rfl | ⟨tok, -, -, -, he⟩
      · rfl
      · rw [(exec_frame he).1]; simp [takeOffer]
    | consumer u =>
      rcases consumerMove_cases h with rfl | ⟨tok, q, -, -, -, ⟨-, rfl⟩ | ⟨-, -, he⟩⟩
      · rfl
      · simp [deliverHead]
      · rw [(exec_frame he).1]; simp [deliverHead]
    | host m =>
      cases h
      cases m <;> (simp only [hostMove, onLines]; split_ifs <;> rfl)
    | withdraw u =>
      simp only [agentMove, withdrawMove] at h
      split at h <;> cases h
      rfl

theorem step_schedule {s t : State} (h : step s = .next t) : t.schedule = s.schedule.tail := by
  simp only [step, nextMove] at h
  split at h
  · rename_i hs; cases h; simp [hs]
  · rename_i e rest hs
    simp only [hs, List.tail_cons]
    cases e with
    | producer u =>
      cases h
      rcases producerMove_cases u { s with schedule := rest } with hp | ⟨_, _, -, -, -, hp⟩
      · rw [hp]
      · rw [hp]; simp
    | unit u =>
      rcases unitMove_cases h with rfl | ⟨tok, -, -, -, he⟩
      · rfl
      · rw [(exec_frame he).2.1]; simp [takeOffer]
    | consumer u =>
      rcases consumerMove_cases h with rfl | ⟨tok, q, -, -, -, ⟨-, rfl⟩ | ⟨-, -, he⟩⟩
      · rfl
      · simp [deliverHead]
      · rw [(exec_frame he).2.1]; simp [deliverHead]
    | host m =>
      cases h
      cases m <;> (simp only [hostMove, onLines]; split_ifs <;> rfl)
    | withdraw u =>
      simp only [agentMove, withdrawMove] at h
      split at h <;> cases h
      rfl

/-- The host's move at a unit it resets. -/
theorem hostMove_resets {u : UnitId} {m : HostMove} (h : resetsUnit u (.host m) = true) (s : State) :
    atReset (hostMove m s) u = true
      ∧ ∃ level, portOf (hostMove m s) u = { portOf s u with rst := level, wasReset := true } := by
  cases m with
  | pulseRst l =>
    obtain ⟨a, b⟩ := l
    refine ⟨?_, false, ?_⟩ <;> cases u <;> cases a <;> cases b <;> first | rfl | cases h
  | holdRst l =>
    obtain ⟨a, b⟩ := l
    refine ⟨?_, true, ?_⟩ <;> cases u <;> cases a <;> cases b <;> first | rfl | cases h
  | releaseRst l => cases h

/-- The host's move at a unit it does not reset. -/
theorem hostMove_quiet {u : UnitId} {m : HostMove} (h : ¬ resetsUnit u (.host m) = true) (s : State) :
    Quiet u s (hostMove m s) := by
  cases m with
  | pulseRst l =>
    obtain ⟨a, b⟩ := l
    cases u <;> cases a <;> cases b <;>
      first | exact absurd rfl h | exact ⟨rfl, rfl, rfl, rfl, fun _ h => h, rfl, id, .inl ⟨rfl, rfl⟩⟩
  | holdRst l =>
    obtain ⟨a, b⟩ := l
    cases u <;> cases a <;> cases b <;>
      first | exact absurd rfl h | exact ⟨rfl, rfl, rfl, rfl, fun _ h => h, rfl, id, .inl ⟨rfl, rfl⟩⟩
  | releaseRst l =>
    obtain ⟨a, b⟩ := l
    cases u <;> cases a <;> cases b <;>
      exact ⟨rfl, rfl, rfl, rfl, fun _ h => h, rfl, (by first | exact id | exact nofun), .inl ⟨rfl, rfl⟩⟩

/-- A step's head is no part of what a unit shows. -/
theorem Quiet.of_schedule {u : UnitId} {s t : State} {l : List Event} (h : Quiet u { s with schedule := l } t) :
    Quiet u s t := by
  cases u <;> exact ⟨h.block, h.err, h.emitted, h.left, h.offer, h.wasReset, h.rst, h.delivered⟩

/-- A producer's offer is quiet at every unit. -/
theorem producerMove_quiet (u v : UnitId) (s : State) : Quiet u s (producerMove v s) := by
  rcases producerMove_cases v s with hp | ⟨tok, more, -, ho, hi, hp⟩ <;> rw [hp]
  · exact Quiet.refl u s s.schedule
  · cases u <;> cases v <;> simp only [portOf] at ho hi <;>
      refine ⟨rfl, rfl, rfl, ?_, ?_, rfl, id, .inl ⟨rfl, rfl⟩⟩ <;>
      simp [streamLeft, portOf, setPort, ho, hi]

/-- Delivering the head of a queue is quiet at every unit. -/
theorem deliverHead_quiet (u v : UnitId) {s : State} {tok : Token} {q : List Token}
    (hw : (portOf s v).wasReset = true) (hr : (portOf s v).rst = false) (hp : pendOf s v = tok :: q) : Quiet u s (deliverHead v tok q s) := by
  cases u <;> cases v <;> simp only [pendOf, portOf] at hp hr hw
  · refine ⟨rfl, rfl, ?_, rfl, fun _ h => h, rfl, id, .inr ⟨tok, ?_, ?_, ?_⟩⟩ <;>
      simp [emittedAll, portOf, pendOf, deliverHead, setPend, setPort, hp, hr, hw]
  · exact ⟨rfl, rfl, rfl, rfl, fun _ h => h, rfl, id, .inl ⟨rfl, rfl⟩⟩
  · exact ⟨rfl, rfl, rfl, rfl, fun _ h => h, rfl, id, .inl ⟨rfl, rfl⟩⟩
  · refine ⟨rfl, rfl, ?_, rfl, fun _ h => h, rfl, id, .inr ⟨tok, ?_, ?_, ?_⟩⟩ <;>
      simp [emittedAll, portOf, pendOf, deliverHead, setPend, setPort, hp, hr, hw]

/-- One step as unit `u` sees it: it is reset, stays quiet, or accepts one token. -/
theorem step_unit_cases (u : UnitId) {s t : State} (h : step s = .next t) :
    IsReset u s t ∨ Quiet u s t ∨ ∃ tok, Accepts u tok s t := by
  simp only [step, nextMove] at h
  split at h
  · cases h; exact .inr (.inl (Quiet.refl u s s.schedule))
  · rename_i e rest hs
    cases e with
    | producer v =>
      cases h
      exact .inr (.inl (producerMove_quiet u v _).of_schedule)
    | unit v =>
      rcases unitMove_cases h with rfl | ⟨tok, hf, ho, hc, he⟩
      · exact .inr (.inl (Quiet.refl u s rest))
      · have hx := exec_accepts (by simpa using hc) he
        rw [canAccept_schedule] at hc
        rw [portOf_schedule] at ho
        rw [fedByPeer_schedule] at hf
        cases v <;> cases u <;> simp only at hx <;> subst hx
        · exact .inr (.inr ⟨tok, hc, rfl, rfl, ⟨rfl, rfl⟩, .inl ⟨hf, ho, rfl, rest, hs⟩⟩)
        · exact .inr (.inl ⟨rfl, rfl, rfl, rfl, fun _ h => h, rfl, id, .inl ⟨rfl, rfl⟩⟩)
        · exact .inr (.inl ⟨rfl, rfl, rfl, rfl, fun _ h => h, rfl, id, .inl ⟨rfl, rfl⟩⟩)
        · exact .inr (.inr ⟨tok, hc, rfl, rfl, ⟨rfl, rfl⟩, .inl ⟨hf, ho, rfl, rest, hs⟩⟩)
    | consumer v =>
      rcases consumerMove_cases h with rfl | ⟨tok, q, hw, hr, hp, ⟨-, rfl⟩ | ⟨hf, hc, he⟩⟩
      · exact .inr (.inl (Quiet.refl u s rest))
      · exact .inr (.inl (deliverHead_quiet u v hw hr hp).of_schedule)
      · have hx := exec_accepts (by simpa using hc) he
        rw [canAccept_schedule] at hc
        rw [portOf_schedule] at hw hr
        rw [pendOf_schedule] at hp
        rw [fedByPeer_schedule] at hf
        cases v <;> cases u <;> simp only [UnitId.peer] at hx hc hf <;> subst hx
        · have hq := (deliverHead_quiet .sp .sp hw hr hp)
          exact .inr (.inl ⟨hq.block, hq.err, hq.emitted, hq.left, hq.offer, hq.wasReset, hq.rst, hq.delivered⟩)
        · exact .inr (.inr ⟨tok, hc, rfl, rfl, ⟨rfl, rfl⟩, .inr ⟨hf, rfl, hw, hr, hp, rfl, rest, hs⟩⟩)
        · exact .inr (.inr ⟨tok, hc, rfl, rfl, ⟨rfl, rfl⟩, .inr ⟨hf, rfl, hw, hr, hp, rfl, rest, hs⟩⟩)
        · have hq := (deliverHead_quiet .su .su hw hr hp)
          exact .inr (.inl ⟨hq.block, hq.err, hq.emitted, hq.left, hq.offer, hq.wasReset, hq.rst, hq.delivered⟩)
    | host m =>
      cases h
      by_cases hr : resetsUnit u (.host m) = true
      · obtain ⟨ha, level, hl⟩ := hostMove_resets hr { s with schedule := rest }
        rw [portOf_schedule] at hl
        exact .inl ⟨⟨_, rest, hs, hr⟩, ha, level, hl⟩
      · exact .inr (.inl (hostMove_quiet hr _).of_schedule)
    | withdraw v =>
      simp only [agentMove, withdrawMove] at h
      split at h <;> cases h
      exact .inr (.inl (Quiet.refl u s rest))

/-- What unit `u` delivers in one step: nothing, or the head of its queue; on a wired output port the other unit accepts
that token in the same step. -/
theorem step_delivers (u : UnitId) {s t : State} (h : step s = .next t) :
    (portOf t u).output = (portOf s u).output
    ∨ ∃ tok, (portOf t u).output = (portOf s u).output ++ [tok]
        ∧ (fedByPeer s u.peer = true → Accepts u.peer tok s t) := by
  rcases step_unit_cases u h with hr | hq | ⟨tok, ha⟩
  · obtain ⟨level, hl⟩ := hr.port
    exact .inl (by rw [hl])
  · simp only [step, nextMove] at h
    split at h
    · cases h; exact .inl rfl
    · rename_i e rest hs
      cases e with
      | producer v =>
        cases h
        left
        rcases producerMove_cases v { s with schedule := rest } with hp | ⟨tok, more, -, -, -, hp⟩ <;> rw [hp] <;>
          cases u <;> cases v <;> rfl
      | unit v =>
        left
        rcases unitMove_cases h with rfl | ⟨tok, -, -, hc, he⟩
        · cases u <;> rfl
        · have hx := exec_accepts (by simpa using hc) he
          cases u <;> cases v <;> simp only at hx <;> subst hx <;> rfl
      | consumer v =>
        rcases consumerMove_cases h with rfl | ⟨tok, q, hw, hr, hp, ⟨hf, rfl⟩ | ⟨hf, hc, he⟩⟩
        · left; cases u <;> rfl
        · rw [fedByPeer_schedule] at hf
          cases u <;> cases v
          · exact .inr ⟨tok, rfl, fun hf' => absurd hf' (by simp [hf])⟩
          · exact .inl rfl
          · exact .inl rfl
          · exact .inr ⟨tok, rfl, fun hf' => absurd hf' (by simp [hf])⟩
        · have hx := exec_accepts (by simpa using hc) he
          rw [canAccept_schedule] at hc
          rw [portOf_schedule] at hw hr
          rw [pendOf_schedule] at hp
          rw [fedByPeer_schedule] at hf
          cases v <;> cases u <;> simp only [UnitId.peer] at hx hc hf <;> subst hx
          · exact .inr ⟨tok, rfl, fun _ => ⟨hc, rfl, rfl, ⟨rfl, rfl⟩, .inr ⟨hf, rfl, hw, hr, hp, rfl, rest, hs⟩⟩⟩
          · exact .inl rfl
          · exact .inl rfl
          · exact .inr ⟨tok, rfl, fun _ => ⟨hc, rfl, rfl, ⟨rfl, rfl⟩, .inr ⟨hf, rfl, hw, hr, hp, rfl, rest, hs⟩⟩⟩
      | host m =>
        cases h
        left
        cases u <;> cases m <;> (simp only [hostMove, onLines]; split_ifs <;> rfl)
      | withdraw v =>
        simp only [agentMove, withdrawMove] at h
        split at h <;> cases h
        left; cases u <;> rfl
  · exact .inl ha.output

end Sys2Proof.Machine
end

