-- ==== Sys2Proof/Laws/Run.lean ====
section
/-! SUPPORT. Runs as seen from one unit the host does not reset: what it accepts, in order, decides what it emits; and what
the tokens of a sequence do to a unit's registers. -/

namespace Sys2Proof.Machine

/-! ### Runs -/

/-- A run of one step more is a step and a run. -/
theorem run_succ {k : Nat} {s t : State} :
    core.run (k + 1) s = .next t ↔ ∃ m, step s = .next m ∧ core.run k m = .next t := by
  have hs : core.step s = step s := rfl
  simp only [Host.Core.run, hs]
  cases step s <;> simp

/-- A unit the schedule does not reset is not reset by the next step, nor by the steps after it. -/
theorem noReset_step {u : UnitId} {s m : State} (h : step s = .next m) (hn : noReset u s = true) :
    noReset u m = true ∧ ¬ IsReset u s m := by
  refine ⟨?_, fun hr => ?_⟩
  · unfold noReset at *
    rw [step_schedule h]
    rw [List.all_eq_true] at *
    exact fun e he => hn e (List.mem_of_mem_tail he)
  · obtain ⟨e, rest, hs, he⟩ := hr.head
    simp [noReset, hs, he] at hn

/-- Induction over a run in which the host does not reset unit `u`: each step is quiet there or accepts one token. -/
theorem run_induct {u : UnitId} {P : State → State → Prop} (refl : ∀ s, P s s)
    (next : ∀ s m t, step s = .next m → (Quiet u s m ∨ ∃ tok, Accepts u tok s m) → P m t → P s t) :
    ∀ (k : Nat) (s t : State), noReset u s = true → core.run k s = .next t → P s t := by
  intro k
  induction k with
  | zero => intro s t _ h; cases h; exact refl s
  | succ k ih =>
    intro s t hn h
    obtain ⟨m, h1, h2⟩ := run_succ.1 h
    obtain ⟨hm, hx⟩ := noReset_step h1 hn
    exact next s m t h1 ((step_unit_cases u h1).resolve_left hx) (ih m t hm h2)

/-! ### What a unit has emitted, as a function of what it has accepted -/

/-- SP's registers with all it has emitted in place of `pend`. -/
def spHistory (s : State) : Packer := { s.sp with pend := emittedAll s .sp }

/-- SU's registers with all it has emitted in place of `pend`. -/
def suHistory (s : State) : Unpacker := { s.su with pend := emittedAll s .su }

/-- SP's rules applied to tokens in order. -/
def spFeed (policy : RangePolicy) (p : Packer) (ts : List Token) : Packer :=
  ts.foldl (fun p t => spEffect policy (decodeSp t) p) p

/-- SU's rules applied to tokens in order. -/
def suFeed (p : Unpacker) (ts : List Token) : Unpacker :=
  ts.foldl (fun p t => suEffect (decodeSu t) p) p

theorem spFeed_append (policy : RangePolicy) (p : Packer) (xs ys : List Token) :
    spFeed policy p (xs ++ ys) = spFeed policy (spFeed policy p xs) ys := by simp [spFeed]

theorem suFeed_append (p : Unpacker) (xs ys : List Token) :
    suFeed p (xs ++ ys) = suFeed (suFeed p xs) ys := by simp [suFeed]

theorem spHistory_quiet {s m : State} (h : Quiet .sp s m) : spHistory m = spHistory s := by
  have h1 := h.block
  have h2 := h.err
  simp only [blockOf, Prod.mk.injEq, errOf] at h1 h2
  simp [spHistory, h1, h2, h.emitted]

theorem suHistory_quiet {s m : State} (h : Quiet .su s m) : suHistory m = suHistory s := by
  have h1 := h.block
  simp only [blockOf, Prod.mk.injEq] at h1
  simp [suHistory, h1, h.emitted]

theorem spHistory_accepts {s m : State} {tok : Token} (h : Accepts .sp tok s m) :
    spHistory m = spEffect s.config.rangePolicy (decodeSp tok) (spHistory s) := by
  have h1 : m.sp = _ := h.regs
  have h2 := h.output
  have hp : s.sp.pend = [] := pendOf_of_canAccept h.can
  have ha := spEffect_append s.config.rangePolicy (decodeSp tok) s.sp s.spPort.output
  simp only [spHistory, emittedAll, portOf, pendOf] at *
  rw [ha, h1, h2]

theorem suHistory_accepts {s m : State} {tok : Token} (h : Accepts .su tok s m) :
    suHistory m = suEffect (decodeSu tok) (suHistory s) := by
  have h1 : m.su = _ := h.regs
  have h2 := h.output
  have hp : s.su.pend = [] := pendOf_of_canAccept h.can
  have ha := suEffect_append (decodeSu tok) s.su s.suPort.output
  simp only [suHistory, emittedAll, portOf, pendOf] at *
  rw [ha, h1, h2]

/-- A run of an unwired SP that the host does not reset: the tokens it accepted are the first of its stream, its history is
that of feeding them, and each was accepted with `err = 0`. -/
theorem sp_trace {k : Nat} {s t : State} (hn : noReset .sp s = true) (hf : s.config.suToSp = false)
    (h : core.run k s = .next t) :
    ∃ acc, streamLeft s .sp = acc ++ streamLeft t .sp
      ∧ spHistory t = spFeed s.config.rangePolicy (spHistory s) acc
      ∧ ∀ pre tok post, acc = pre ++ tok :: post → (spFeed s.config.rangePolicy (spHistory s) pre).err = false := by
  revert hf
  refine run_induct (u := .sp)
    (P := fun s t => s.config.suToSp = false → ∃ acc, streamLeft s .sp = acc ++ streamLeft t .sp
      ∧ spHistory t = spFeed s.config.rangePolicy (spHistory s) acc
      ∧ ∀ pre tok post, acc = pre ++ tok :: post → (spFeed s.config.rangePolicy (spHistory s) pre).err = false)
    (fun s _ => ⟨[], rfl, rfl, by simp⟩) ?_ k s t hn h
  rintro s m t hst (hq | ⟨tok, ha⟩) ih hf
  · obtain ⟨acc, h1, h2, h3⟩ := ih (by rw [step_config hst]; exact hf)
    rw [step_config hst, spHistory_quiet hq] at h2 h3
    exact ⟨acc, by rw [← hq.left, h1], h2, h3⟩
  · obtain ⟨acc, h1, h2, h3⟩ := ih (by rw [step_config hst]; exact hf)
    rw [step_config hst, spHistory_accepts ha] at h2 h3
    refine ⟨tok :: acc, ?_, h2, ?_⟩
    · rcases ha.source with ⟨-, ho, hp, -⟩ | ⟨hf', -⟩
      · simp only [streamLeft, ho, hp, Option.toList, List.nil_append, List.cons_append] at h1 ⊢
        rw [h1]
      · simp [fedByPeer, hf] at hf'
    · intro pre tk post he
      cases pre with
      | nil => exact errOf_of_canAccept ha.can
      | cons a pre =>
        simp only [List.cons_append, List.cons.injEq] at he
        rw [he.1] at h3
        exact h3 pre tk post he.2

/-- A run of an unwired SU that the host does not reset. -/
theorem su_trace {k : Nat} {s t : State} (hn : noReset .su s = true) (hf : s.config.spToSu = false)
    (h : core.run k s = .next t) :
    ∃ acc, streamLeft s .su = acc ++ streamLeft t .su ∧ suHistory t = suFeed (suHistory s) acc := by
  revert hf
  refine run_induct (u := .su)
    (P := fun s t => s.config.spToSu = false → ∃ acc, streamLeft s .su = acc ++ streamLeft t .su
      ∧ suHistory t = suFeed (suHistory s) acc)
    (fun s _ => ⟨[], rfl, rfl⟩) ?_ k s t hn h
  rintro s m t hst (hq | ⟨tok, ha⟩) ih hf
  · obtain ⟨acc, h1, h2⟩ := ih (by rw [step_config hst]; exact hf)
    rw [suHistory_quiet hq] at h2
    exact ⟨acc, by rw [← hq.left, h1], h2⟩
  · obtain ⟨acc, h1, h2⟩ := ih (by rw [step_config hst]; exact hf)
    rw [suHistory_accepts ha] at h2
    refine ⟨tok :: acc, ?_, h2⟩
    rcases ha.source with ⟨-, ho, hp, -⟩ | ⟨hf', -⟩
    · simp only [streamLeft, ho, hp, Option.toList, List.nil_append, List.cons_append] at h1 ⊢
      rw [h1]
    · simp [fedByPeer, hf] at hf'

/-! ### The tokens of a sequence, fed to a unit -/

/-- SP consumes data bytes in order. -/
def spData (p : Packer) (xs : List Byte) : Packer := xs.foldl (fun p x => spConsume x p) p

/-- SU consumes octets in order. -/
def suData (p : Unpacker) (ys : List Byte) : Unpacker := ys.foldl (fun p y => suConsume y p) p

theorem spData_append (p : Packer) (xs ys : List Byte) : spData p (xs ++ ys) = spData (spData p xs) ys := by
  simp [spData]

theorem suData_append (p : Unpacker) (xs ys : List Byte) : suData p (xs ++ ys) = suData (suData p xs) ys := by
  simp [suData]

theorem tokensOf_append (a b : List Instr) : tokensOf (a ++ b) = tokensOf a ++ tokensOf b := by simp [tokensOf]

/-- A full block from phase 0 emits its seven octets and comes back to phase 0. -/
theorem spData_block (a b c d e f g h : Byte) (q : List Token) (er : Bool) :
    spData ⟨0#3, 0#8, er, q⟩ [a, b, c, d, e, f, g, h]
      = ⟨0#3, 0#8, er, q ++ (packBlock8 a b c d e f g h).map Token.ofData⟩ := by
  simp [spData, spConsume, spSetBlock, spEmit, octetFormed, packBlock8]

/-- Seven octets from phase 0 emit seven septets and hold the eighth back. -/
theorem suData_block (a b c d e f g : Byte) (q : List Token) :
    suData ⟨0#3, 0#8, q⟩ [a, b, c, d, e, f, g] = ⟨7#3, g, q ++ (unpackFirst7 a b c d e f g).map Token.ofData⟩ := by
  simp [suData, suConsume, suSetBlock, suEmit, septetFormed, firstSeptet, unpackFirst7]

/-- An octet after a full block: as one at phase 0 with the held septet already emitted. -/
theorem suConsume_after_block (g y : Byte) (q : List Token) :
    suConsume y ⟨7#3, g, q⟩ = suConsume y ⟨0#3, 0#8, q ++ [Token.ofData (g >>> 1)]⟩ := by
  simp [suConsume, suSetBlock, suEmit, heldSeptet_eq]

theorem septet_of_low (x : Byte) (h : x.getLsbD 7 = false) :
    septetOperand (x.setWidth 7) = x ∧ underPolicy .mask x = x := by
  revert h x; decide

theorem septet_of_high (x : Byte) (h : x.getLsbD 7 = true) :
    outOfRangeByte (x.setWidth 7) = x ∧ septetOperand (x.setWidth 7) = underPolicy .mask x ∧ isSeptet x = false := by
  revert h x; decide

theorem decodeSp_put7 : ∀ d : Septet, decodeSp (encodeToken (.put7 d)) = .put7 d := by decide

theorem decodeSp_put7Oor : ∀ d : Septet, decodeSp (encodeToken (.put7Oor d)) = .put7Oor d := by decide

/-- SP takes a data byte as the byte its policy makes of it; under `fault` that asks for a septet. -/
theorem putByte_effect (policy : RangePolicy) (x : Byte) (p : Packer) (h : policy = .fault → isSeptet x = true) :
    spEffect policy (decodeSp (encodeToken (putByte x))) p = spConsume (underPolicy policy x) p := by
  unfold putByte
  by_cases h7 : x.getLsbD 7 = true
  · obtain ⟨h2, h3, h4⟩ := septet_of_high x h7
    rw [if_pos h7, decodeSp_put7Oor]
    cases policy
    · simp [h4] at h
    · simp [spEffect, outOfRangeOperand, h3]
    · simp [spEffect, outOfRangeOperand, h2, underPolicy]
  · obtain ⟨h2, h3⟩ := septet_of_low x (by simpa using h7)
    rw [if_neg h7, decodeSp_put7]
    cases policy
    · simp [spEffect, h2, underPolicy]
    · rw [h3]; simp [spEffect, h2]
    · simp [spEffect, h2, underPolicy]

/-- The data tokens of a sequence, fed to SP. -/
theorem spFeed_data (policy : RangePolicy) (xs : List Byte) (h : policy = .fault → allSeptets xs = true) :
    ∀ p, spFeed policy p (tokensOf (xs.map putByte)) = spData p (xs.map (underPolicy policy)) := by
  induction xs with
  | nil => intro p; rfl
  | cons x xs ih =>
    intro p
    have hx : policy = .fault → isSeptet x = true := fun hp => by
      have := h hp; simp only [allSeptets, List.all_cons, Bool.and_eq_true] at this; exact this.1
    have hxs : policy = .fault → allSeptets xs = true := fun hp => by
      have := h hp; simp only [allSeptets, List.all_cons, Bool.and_eq_true] at this; exact this.2
    simp only [List.map_cons, tokensOf, spFeed, List.foldl_cons, spData] at *
    rw [putByte_effect policy x p hx]
    exact ih hxs _

/-- The octet tokens of a sequence, fed to SU. -/
theorem suFeed_data (ys : List Byte) : ∀ p, suFeed p (tokensOf (ys.map Instr.put8)) = suData p ys := by
  induction ys with
  | nil => intro p; rfl
  | cons y ys ih => intro p; exact ih _

end Sys2Proof.Machine
end

