-- ==== Sys2Proof/Tests/Slice0.lean ====
section
/-! SUPPORT. Tests: ill-formed terms the checks refuse, words written out from 30 R62 and R69, single token steps and
sequences from the vectors of 95, and one witness per statement with hypotheses. -/

namespace Sys2Proof.Tests

open Sys2Proof.Machine

/-! ### Small states -/

/-- SP alone, out of reset, with the given policy and block registers. -/
def spAt (policy : RangePolicy) (phase : Phase) (prev : Byte) : State :=
  { State.reset with config := ⟨policy, false, false⟩, sp := ⟨phase, prev, false, []⟩ }

/-- SU alone, out of reset, with the given block registers. -/
def suAt (phase : Phase) (prev : Byte) : State := { State.reset with su := ⟨phase, prev, []⟩ }

/-- SP from reset with a stream to offer and moves to make. -/
def spRun (policy : RangePolicy) (is : List Instr) (moves : List Event) : State :=
  { State.reset with
    config := ⟨policy, false, false⟩
    spPort := { Port.afterReset with input := tokensOf is }
    schedule := moves }

/-- SU from reset with a stream to offer and moves to make. -/
def suRun (is : List Instr) (moves : List Event) : State :=
  { State.reset with suPort := { Port.afterReset with input := tokensOf is }, schedule := moves }

/-- SP wired to SU. -/
def chainRun (is : List Instr) (moves : List Event) : State :=
  { spRun .fault is moves with config := ⟨.fault, true, false⟩ }

/-- SU wired to SP, a token waiting in SU's queue. -/
def linkedToSp (tok : Token) : State :=
  { State.reset with
    config := ⟨.fault, false, true⟩
    su := ⟨0#3, 0#8, [tok]⟩
    schedule := [.consumer .su] }

/-- SP stuck with `err = 1`. -/
def faulted (moves : List Event) : State :=
  { State.reset with sp := ⟨2#3, 2#8, true, [Token.ofData 1]⟩, schedule := moves }

/-- The state an outcome leaves, if it is one. -/
def stateOr (s : State) : Host.Outcome State Fault Refusal → State
  | .next t => t
  | .fault _ => s
  | .refused _ => s

/-- The state after `k` steps that all answer a next state. -/
def after (k : Nat) (s : State) : State := stateOr s (core.run k s)

/-- SP's registers after one token. -/
def spAfter (i : Instr) (s : State) : Packer := (stateOr s (exec i s)).sp

/-- SU's registers after one token. -/
def suAfter (i : Instr) (s : State) : Unpacker := (stateOr s (exec i s)).su

/-! ### Ill-formed terms -/

theorem test_wellFormedAt_refuses : (Instr.put8 0).wellFormedAt .sp = false ∧ (Instr.end7 0).wellFormedAt .su = false := by
  decide

theorem test_wellFormedStream_refuses : wellFormedStream .sp [.put7 1, .end8 0] = false := by decide

theorem test_isSeptet_refuses : isSeptet 128 = false ∧ isSeptet 127 = true := by decide

theorem test_allSeptets_refuses : allSeptets [0, 255] = false := by decide

theorem test_inRange_refuses : (Instr.put7Oor 0).inRange = false ∧ (Instr.put7 0).inRange = true := by decide

theorem test_closedStream_refuses : closedStream [.end7 0, .put7 1] = false ∧ closedStream [.put7 1, .end7 0] = true := by
  decide

/-! ### Words written out from the encodings of 30 R62 -/

/-- PUT7 0x55 is `0 0 1010101`. -/
theorem test_decode_put7 : decode .sp 0b001010101#9 = .put7 0b1010101#7 := by decide

/-- PUT7.OOR 0x01 is `0 1 0000001` (R69: 0x081). -/
theorem test_decode_put7Oor : decode .sp 0b010000001#9 = .put7Oor 0b0000001#7 := by decide

/-- END7 with its ignored bits at 0x55 is `1 01010101` (95 P4: 0x155). -/
theorem test_decode_end7 : decode .sp 0b101010101#9 = .end7 0x55 := by decide

/-- PUT8 0xC1 is `0 11000001` (R69: 0x0C1). -/
theorem test_decode_put8 : decode .su 0b011000001#9 = .put8 0b11000001#8 := by decide

/-- END8 with its ignored bits at 0x12 is `1 00010010` (95 V7.26). -/
theorem test_decode_end8 : decode .su 0b100010010#9 = .end8 0x12 := by decide

theorem test_encode_words :
    encode (.put7 0x41) = 0x041 ∧ encode (.put7Oor 1) = 0x081 ∧ encode (.end7 0) = 0x100
    ∧ encode (.put8 0xC1) = 0x0C1 ∧ encode (.end8 0) = 0x100 := by decide

theorem test_decode_rejects_ten_bits : decodeTableWord 16 0x200 = none ∧ decodeTableWord 16 0x1FF = some (.end7 0xFF) := by
  decide

theorem test_text : instrText (.put7Oor 1) = "PUT7.OOR 1" ∧ outputText .su (Token.ofData 0x41) = "SEP 65" := by decide

/-! ### Single token steps (95 section 7 and P5) -/

/-- 95 V7.5. -/
theorem test_put7_phase4 : spAfter (.put7 0x6F) (spAt .fault 4 0x6C) = ⟨5, 0x6F, false, [Token.ofData 0xFD]⟩ := by decide

/-- 95 V7.6. -/
theorem test_put7_phase7 : spAfter (.put7 0x40) (spAt .fault 7 0x40) = ⟨0, 0, false, [Token.ofData 0x81]⟩ := by decide

/-- 95 P5, `fault`. -/
theorem test_put7Oor_fault : spAfter (.put7Oor 0) (spAt .fault 2 2) = ⟨2, 2, true, []⟩ := by decide

/-- 95 P5, `raw`. -/
theorem test_put7Oor_raw : spAfter (.put7Oor 0) (spAt .raw 2 2) = ⟨3, 0x80, false, [Token.ofData 1]⟩ := by decide

/-- 95 V7.11. -/
theorem test_end7_zero_octet : spAfter (.end7 0) (spAt .fault 7 0x3F) = ⟨0, 0, false, [Token.ofData 0, Token.fin]⟩ := by
  decide

/-- 95 V7.12. -/
theorem test_end7_ignores_data : spAfter (.end7 0xAB) (spAt .fault 3 0x7F) = ⟨0, 0, false, [Token.ofData 0x1F, Token.fin]⟩ := by
  decide

/-- 95 V7.18. -/
theorem test_put8_phase6 : suAfter (.put8 0x01) (suAt 6 0x00) = ⟨7, 0x01, [Token.ofData 0x40]⟩ := by decide

/-- 95 V7.20. -/
theorem test_put8_phase7 : suAfter (.put8 0x80) (suAt 7 0xFF) = ⟨1, 0x80, [Token.ofData 0x7F, Token.ofData 0x00]⟩ := by
  decide

/-- 95 V7.24. -/
theorem test_end8_suppresses : suAfter (.end8 0) (suAt 7 0x01) = ⟨0, 0, [Token.fin]⟩ := by decide

/-- 95 V7.26. -/
theorem test_end8_held : suAfter (.end8 0x12) (suAt 7 0xFF) = ⟨0, 0, [Token.ofData 0x7F, Token.fin]⟩ := by decide

/-! ### Sequences (95 sections 3 to 6) -/

/-- 95 V3.28. -/
theorem test_pack_ten :
    pack [0x68, 0x65, 0x6C, 0x6C, 0x6F, 0x68, 0x65, 0x6C, 0x6C, 0x6F]
      = [0xE8, 0x32, 0x9B, 0xFD, 0x46, 0x97, 0xD9, 0xEC, 0x37] := by decide

/-- 95 V4.19. -/
theorem test_unpack_keeps_inner_zero :
    unpack [0, 0, 0, 0, 0, 0, 0, 0, 0, 0, 0, 0, 0, 2] = [0, 0, 0, 0, 0, 0, 0, 0, 0, 0, 0, 0, 0, 0, 0, 1] := by decide

/-- 95 V5.6. -/
theorem test_pack_raw : pack ([0x01, 0x02, 0x80, 0x02].map (underPolicy .raw)) = [0x01, 0x01, 0x60, 0x00] := by decide

/-- 95 V6.9. -/
theorem test_round_trip_drops_zero : unpack (pack [1, 2, 3, 4, 5, 6, 7, 0]) = [1, 2, 3, 4, 5, 6, 7] := by decide

/-- 30 R72 and 95 P5: the results as the spec writes them. -/
theorem test_results :
    resultOf (closedOutput [1, 0x60]) false = .closed [1, 0x60] ∧ resultOf [Token.ofData 1] true = .faultAfter [1] := by
  decide

/-! ### Witnesses: state, reset and encodings -/

theorem test_witness_ResetEdgeTakesResetState :
    (faulted [.host (.pulseRst ⟨true, false⟩)]).schedule = Event.host (.pulseRst ⟨true, false⟩) :: []
    ∧ (faulted [.host (.holdRst ⟨true, true⟩)]).schedule = Event.host (.holdRst ⟨true, true⟩) :: []
    ∧ (faulted [.host (.releaseRst ⟨false, true⟩)]).schedule = Event.host (.releaseRst ⟨false, true⟩) :: [] := by decide

theorem test_witness_UnacceptedTokenHasNoEffect :
    canAccept (faulted []) (Instr.put7 1).port = false
    ∧ canAccept { State.reset with suPort := { Port.afterReset with wasReset := false } } (Instr.end8 0).port = false := by
  decide

theorem test_witness_TokensWriteTheirUnitOnly :
    (Instr.put7Oor 0).port = .sp
    ∧ exec (.put7Oor 0) (spAt .fault 2 2) = .next (stateOr (spAt .fault 2 2) (exec (.put7Oor 0) (spAt .fault 2 2)))
    ∧ (Instr.put8 1).port = .su
    ∧ exec (.put8 1) (suAt 7 2) = .next (stateOr (suAt 7 2) (exec (.put8 1) (suAt 7 2))) := ⟨rfl, rfl, rfl, rfl⟩

theorem test_witness_DecodeEncodeAgree :
    (Instr.put7Oor 127).wellFormedAt .sp = true ∧ (Instr.end8 255).wellFormedAt .su = true
    ∧ wellFormedStream .sp [.put7 0, .put7Oor 127, .end7 255] = true ∧ wellFormedStream .su [.put8 255, .end8 0] = true := by
  decide

theorem test_witness_EndDataBitsAreIgnored :
    (⟨true, 0x00⟩ : Token).isEnd = true ∧ (⟨true, 0xAB⟩ : Token).isEnd = true := by decide

theorem test_witness_OutputTokensChain : isSeptet 0 = true ∧ isSeptet 127 = true := by decide

/-! ### Witnesses: tokens -/

theorem test_witness_Put7OpensBlock : canAccept (spAt .fault 0 0) .sp = true ∧ (spAt .fault 0 0).sp.phase = 0#3 := by decide

theorem test_witness_Put7CompletesOctet :
    (canAccept (spAt .fault 1 1) .sp = true ∧ (spAt .fault 1 1).sp.phase ≠ 0#3)
    ∧ (canAccept (spAt .fault 7 1) .sp = true ∧ (spAt .fault 7 1).sp.phase ≠ 0#3) := by decide

theorem test_witness_OutOfRangeByPolicy :
    (canAccept (spAt .fault 7 1) .sp = true ∧ (spAt .fault 7 1).config.rangePolicy = .fault)
    ∧ (canAccept (spAt .mask 7 1) .sp = true ∧ (spAt .mask 7 1).config.rangePolicy = .mask)
    ∧ (canAccept (spAt .raw 0 0) .sp = true ∧ (spAt .raw 0 0).config.rangePolicy = .raw ∧ (spAt .raw 0 0).sp.phase = 0#3)
    ∧ (canAccept (spAt .raw 7 1) .sp = true ∧ (spAt .raw 7 1).config.rangePolicy = .raw ∧ (spAt .raw 7 1).sp.phase ≠ 0#3) := by
  decide

theorem test_witness_End7FlushesBlock :
    canAccept (spAt .fault 0 0) .sp = true ∧ canAccept (spAt .fault 1 1) .sp = true ∧ canAccept (spAt .raw 7 255) .sp = true := by
  decide

theorem test_witness_PackerOutputBound :
    canAccept (spAt .fault 0 0) .sp = true ∧ canAccept (spAt .mask 7 1) .sp = true := by decide

theorem test_witness_Put8OpensSequence : canAccept (suAt 0 0) .su = true ∧ (suAt 0 0).su.phase = 0#3 := by decide

theorem test_witness_Put8CompletesSeptet :
    (canAccept (suAt 1 255) .su = true ∧ (suAt 1 255).su.phase ≠ 0#3 ∧ (suAt 1 255).su.phase ≠ 7#3)
    ∧ (canAccept (suAt 6 255) .su = true ∧ (suAt 6 255).su.phase ≠ 0#3 ∧ (suAt 6 255).su.phase ≠ 7#3) := by decide

theorem test_witness_Put8ReleasesHeldSeptet : canAccept (suAt 7 0) .su = true ∧ (suAt 7 0).su.phase = 7#3 := by decide

theorem test_witness_End8DropsPartialBits :
    (canAccept (suAt 0 0) .su = true ∧ (suAt 0 0).su.phase ≠ 7#3)
    ∧ (canAccept (suAt 6 255) .su = true ∧ (suAt 6 255).su.phase ≠ 7#3) := by decide

theorem test_witness_End8SuppressesZeroSeptet :
    (canAccept (suAt 7 1) .su = true ∧ (suAt 7 1).su.phase = 7#3 ∧ (suAt 7 1).su.prev >>> 1 = 0#8)
    ∧ (canAccept (suAt 7 2) .su = true ∧ (suAt 7 2).su.phase = 7#3 ∧ (suAt 7 2).su.prev >>> 1 ≠ 0#8) := by decide

/-! ### Witnesses: the codec's laws -/

theorem test_witness_PackKeepsBitNumbers :
    allSeptets [127, 127, 127, 127, 127, 127, 127, 127] = true ∧ (0 < 8 ∧ 0 < 7) ∧ (7 < 8 ∧ 6 < 7) := by decide

theorem test_witness_FullBlocksLoseNothing : allSeptets [1, 2, 3, 4, 5, 6, 7, 127] = true := by decide

theorem test_witness_UnpackLength :
    ([1] : List Byte).length % 7 ≠ 0 ∧ ([] : List Byte).length = 0
    ∧ ([1, 2, 3, 4, 5, 6, 1] : List Byte).length % 7 = 0 ∧ ([1, 2, 3, 4, 5, 6, 1] : List Byte).length ≠ 0 := by decide

theorem test_witness_TrailingZeroPacksAlike :
    allSeptets [1, 2, 3, 4, 5, 6, 127] = true ∧ ([1, 2, 3, 4, 5, 6, 127] : List Byte).length % 8 = 7 := by decide

theorem test_witness_RoundTripExactly : allSeptets [] = true ∧ allSeptets [0, 0, 0, 0, 0, 0, 0, 0] = true := by decide

theorem test_witness_RoundTripDropsOneZero :
    allSeptets [127, 0, 0, 0, 0, 0, 0, 0] = true ∧ 8 ≤ ([127, 0, 0, 0, 0, 0, 0, 0] : List Byte).length
    ∧ ([127, 0, 0, 0, 0, 0, 0, 0] : List Byte).length % 8 = 0
    ∧ ([127, 0, 0, 0, 0, 0, 0, 0] : List Byte).getLast? = some 0#8 := by decide

theorem test_witness_ShortSequences : isSeptet 127 = true := by decide

theorem test_witness_PartialBlockOctets :
    (1 ≤ ([9] : List Byte).length ∧ ([9] : List Byte).length ≤ 7)
    ∧ (1 ≤ ([1, 2, 3, 4, 5, 6, 7] : List Byte).length ∧ ([1, 2, 3, 4, 5, 6, 7] : List Byte).length ≤ 7
        ∧ 5 + 1 < ([1, 2, 3, 4, 5, 6, 7] : List Byte).length) := by decide

theorem test_witness_PartialGroupSeptets :
    (1 ≤ ([9] : List Byte).length ∧ ([9] : List Byte).length ≤ 6)
    ∧ (1 ≤ ([1, 2, 3, 4, 5, 6] : List Byte).length ∧ ([1, 2, 3, 4, 5, 6] : List Byte).length ≤ 6
        ∧ 1 ≤ 5 ∧ 5 < ([1, 2, 3, 4, 5, 6] : List Byte).length) := by decide

theorem test_witness_PackBlocksAreIndependent :
    ([] : List Byte).length % 8 = 0 ∧ ([1, 2, 3, 4, 5, 6, 7, 8] : List Byte).length % 8 = 0 := by decide

theorem test_witness_CombinedPartsAreDisjoint : (1 ≤ 7 ∧ 7 ≤ 7 ∧ isSeptet 127 = true) ∧ (1 ≤ 6 ∧ 6 ≤ 6) := by decide

/-! ### Witnesses: the fault -/

/-- A bad byte on SP's port, about to be accepted. -/
def badByte : State := after 1 (spRun .fault [.put7Oor 0] [.producer .sp, .unit .sp])

theorem test_witness_ErrRisesByDomainErrorOnly :
    (step badByte = .next (after 1 badByte) ∧ badByte.sp.err = false ∧ (after 1 badByte).sp.err = true)
    ∧ (step (linkedToSp (Token.ofData 0x80)) = .next (after 1 (linkedToSp (Token.ofData 0x80)))
        ∧ (linkedToSp (Token.ofData 0x80)).sp.err = false ∧ (after 1 (linkedToSp (Token.ofData 0x80))).sp.err = true) :=
  ⟨⟨rfl, by decide, by decide⟩, ⟨rfl, by decide, by decide⟩⟩

theorem test_witness_ErrFallsByResetOnly :
    step (faulted [.host (.pulseRst ⟨true, false⟩)]) = .next (after 1 (faulted [.host (.pulseRst ⟨true, false⟩)]))
    ∧ (faulted [.host (.pulseRst ⟨true, false⟩)]).sp.err = true
    ∧ (after 1 (faulted [.host (.pulseRst ⟨true, false⟩)])).sp.err = false := ⟨rfl, by decide, by decide⟩

theorem test_witness_FaultedPackerIsStuck :
    (faulted [.consumer .sp, .unit .sp]).sp.err = true ∧ noReset .sp (faulted [.consumer .sp, .unit .sp]) = true
    ∧ core.run 2 (faulted [.consumer .sp, .unit .sp]) = .next (after 2 (faulted [.consumer .sp, .unit .sp])) :=
  ⟨by decide, by decide, rfl⟩

/-- An empty sequence, a septet, a bad byte, and one more token that is never taken. -/
def preciseRun : State :=
  spRun .fault [.end7 0, .put7 1, .put7Oor 0, .put7 2]
    [.producer .sp, .unit .sp, .consumer .sp, .producer .sp, .unit .sp, .producer .sp, .unit .sp]

theorem test_witness_FaultIsPrecise :
    preciseRun.config.rangePolicy = .fault ∧ preciseRun.config.suToSp = false ∧ preciseRun.spPort.wasReset = true
    ∧ preciseRun.sp = Packer.afterReset ∧ noReset .sp preciseRun = true
    ∧ (∀ ys ∈ ([[]] : List (List Byte)), allSeptets ys = true) ∧ allSeptets [1] = true
    ∧ streamLeft preciseRun .sp
        = tokensOf (([[]] : List (List Byte)).flatMap packProgram ++ [1].map putByte ++ .put7Oor 0 :: [.put7 2])
    ∧ core.run 7 preciseRun = .next (after 7 preciseRun) ∧ ended (after 7 preciseRun) .sp = true :=
  ⟨rfl, rfl, rfl, rfl, by decide, by decide, by decide, by decide, rfl, by decide⟩

/-! ### Witnesses: the handshake and the agents -/

theorem test_witness_StepRunsTheOfferedToken :
    (badByte.schedule = .unit .sp :: [] ∧ fedByPeer badByte .sp = false
      ∧ (portOf badByte .sp).offer = some ⟨false, 0x80⟩ ∧ canAccept badByte .sp = true)
    ∧ ((after 1 (suRun [.end8 255] [.producer .su, .unit .su])).schedule = .unit .su :: []
      ∧ fedByPeer (after 1 (suRun [.end8 255] [.producer .su, .unit .su])) .su = false
      ∧ (portOf (after 1 (suRun [.end8 255] [.producer .su, .unit .su])) .su).offer = some ⟨true, 0xFF⟩
      ∧ canAccept (after 1 (suRun [.end8 255] [.producer .su, .unit .su])) .su = true) := by decide

theorem test_witness_StepRunsTheLinkedToken :
    (linkedToSp Token.fin).schedule = .consumer .su :: [] ∧ fedByPeer (linkedToSp Token.fin) UnitId.su.peer = true
    ∧ (portOf (linkedToSp Token.fin) .su).wasReset = true ∧ (portOf (linkedToSp Token.fin) .su).rst = false
    ∧ pendOf (linkedToSp Token.fin) .su = Token.fin :: [] ∧ canAccept (linkedToSp Token.fin) UnitId.su.peer = true := by
  decide

theorem test_witness_FetchedWordIsRun :
    canAccept State.reset .sp = true ∧ decodeTableWord 16 0 = some (.put7 0) ∧ decodeTableWord 16 0x1FF = some (.end7 255) := by
  decide

theorem test_witness_OtherAgentsMove :
    ((faulted [.consumer .sp]).schedule = .consumer .sp :: [] ∧ fedByPeer (faulted [.consumer .sp]) UnitId.sp.peer = false
      ∧ (portOf (faulted [.consumer .sp]) .sp).wasReset = true ∧ (portOf (faulted [.consumer .sp]) .sp).rst = false
      ∧ pendOf (faulted [.consumer .sp]) .sp = Token.ofData 1 :: [])
    ∧ ((suRun [.end8 0] [.producer .su]).schedule = .producer .su :: []
      ∧ fedByPeer (suRun [.end8 0] [.producer .su]) .su = false
      ∧ (portOf (suRun [.end8 0] [.producer .su]) .su).offer = none
      ∧ (portOf (suRun [.end8 0] [.producer .su]) .su).input = Token.fin :: [])
    ∧ ((suRun [] [.unit .su]).schedule = .unit .su :: [] ∧ (portOf (suRun [] [.unit .su]) .su).offer = none)
    ∧ State.reset.schedule = [] := by decide

theorem test_witness_InputIsTakenInOrder :
    step badByte = .next (after 1 badByte) ∧ step (faulted [.unit .su]) = .next (after 1 (faulted [.unit .su])) := ⟨rfl, rfl⟩

theorem test_witness_OutputIsDeliveredInOrder :
    (step badByte = .next (after 1 badByte) ∧ (badByte.schedule.take 1).all (fun e => !resetsUnit .sp e) = true)
    ∧ (step (faulted [.consumer .sp]) = .next (after 1 (faulted [.consumer .sp]))
      ∧ ((faulted [.consumer .sp]).schedule.take 1).all (fun e => !resetsUnit .sp e) = true) :=
  ⟨⟨rfl, by decide⟩, ⟨rfl, by decide⟩⟩

/-- SP with its reset held and a token on offer. -/
def heldInReset : State := { badByte with spPort := { badByte.spPort with rst := true } }

theorem test_witness_HeldResetStopsTransfers :
    step heldInReset = .next (after 1 heldInReset) ∧ (portOf heldInReset .sp).rst = true := ⟨rfl, by decide⟩

theorem test_witness_BrokenHandshakeHasNoMove :
    ({ badByte with schedule := [.withdraw .sp] } : State).schedule = .withdraw .sp :: []
    ∧ (portOf { badByte with schedule := [.withdraw .sp] } .sp).offer = some ⟨false, 0x80⟩ := by decide

/-- Both units powered up and not yet reset, SU wired to SP, with arbitrary registers. -/
def neverReset : State :=
  { linkedToSp Token.fin with
    sp := ⟨5#3, 9#8, true, [Token.fin]⟩
    spPort := { Port.afterReset with wasReset := false }
    suPort := { Port.afterReset with wasReset := false } }

theorem test_witness_PinsShowTheQueue :
    ((portOf badByte .sp).wasReset = true ∧ inReady badByte .sp 0 = true)
    ∧ ((portOf (faulted []) .sp).wasReset = true ∧ outValid (faulted []) .sp 7 = true)
    ∧ (portOf neverReset .sp).wasReset = false ∧ (portOf neverReset .su).wasReset = false
    ∧ fedByPeer (linkedToSp Token.fin) .sp = true ∧ fedByPeer neverReset .sp = true := by decide

theorem test_witness_BuildNeverChanges :
    core.run 2 (chainRun [.end7 0] [.producer .sp, .unit .sp]) = .next (after 2 (chainRun [.end7 0] [.producer .sp, .unit .sp])) :=
  rfl

/-! ### Witnesses: runs -/

/-- Two tokens of SP offered and accepted, and two tokens of output taken. -/
def spMoves : List Event := [.producer .sp, .unit .sp, .producer .sp, .unit .sp, .consumer .sp, .consumer .sp]

theorem test_witness_PackerComputesPack :
    (spRun .fault [.put7 127, .end7 0] spMoves).config.suToSp = false
    ∧ (spRun .fault [.put7 127, .end7 0] spMoves).spPort.wasReset = true
    ∧ (spRun .fault [.put7 127, .end7 0] spMoves).sp = Packer.afterReset
    ∧ noReset .sp (spRun .fault [.put7 127, .end7 0] spMoves) = true
    ∧ (∀ xs ∈ ([[127]] : List (List Byte)), allSeptets xs = true)
    ∧ streamLeft (spRun .fault [.put7 127, .end7 0] spMoves) .sp = tokensOf (([[127]] : List (List Byte)).flatMap packProgram)
    ∧ core.run 6 (spRun .fault [.put7 127, .end7 0] spMoves) = .next (after 6 (spRun .fault [.put7 127, .end7 0] spMoves))
    ∧ ended (after 6 (spRun .fault [.put7 127, .end7 0] spMoves)) .sp = true :=
  ⟨rfl, rfl, rfl, by decide, by decide, by decide, rfl, by decide⟩

/-- The same under `raw`, with a byte that is no septet. -/
theorem test_witness_PackerComputesPack_raw :
    (spRun .raw [.put7Oor 127, .end7 0] spMoves).config.rangePolicy ≠ .fault
    ∧ streamLeft (spRun .raw [.put7Oor 127, .end7 0] spMoves) .sp = tokensOf (([[255]] : List (List Byte)).flatMap packProgram)
    ∧ core.run 6 (spRun .raw [.put7Oor 127, .end7 0] spMoves) = .next (after 6 (spRun .raw [.put7Oor 127, .end7 0] spMoves))
    ∧ ended (after 6 (spRun .raw [.put7Oor 127, .end7 0] spMoves)) .sp = true := ⟨by decide, by decide, rfl, by decide⟩

/-- SU takes one octet and END. -/
def suWhole : State :=
  suRun [.put8 255, .end8 0] [.producer .su, .unit .su, .consumer .su, .producer .su, .unit .su, .consumer .su]

theorem test_witness_UnpackerComputesUnpack :
    (suWhole.config.spToSu = false ∧ suWhole.suPort.wasReset = true ∧ suWhole.su = Unpacker.afterReset
      ∧ noReset .su suWhole = true ∧ streamLeft suWhole .su = tokensOf (([[255]] : List (List Byte)).flatMap unpackProgram)
      ∧ core.run 6 suWhole = .next (after 6 suWhole) ∧ ended (after 6 suWhole) .su = true)
    ∧ canAccept (suAt 7 2) .su = true :=
  ⟨⟨rfl, rfl, rfl, by decide, by decide, rfl, by decide⟩, by decide⟩

/-- One septet and END through both units. -/
def chainWhole : State :=
  chainRun [.put7 1, .end7 0]
    [.producer .sp, .unit .sp, .producer .sp, .unit .sp, .consumer .sp, .consumer .su, .consumer .sp, .consumer .su]

theorem test_witness_ChainComputesRoundTrip :
    chainWhole.config.spToSu = true ∧ chainWhole.config.suToSp = false
    ∧ chainWhole.spPort.wasReset = true ∧ chainWhole.suPort.wasReset = true
    ∧ chainWhole.sp = Packer.afterReset ∧ chainWhole.su = Unpacker.afterReset
    ∧ noReset .sp chainWhole = true ∧ noReset .su chainWhole = true
    ∧ (∀ xs ∈ ([[1]] : List (List Byte)), allSeptets xs = true)
    ∧ streamLeft chainWhole .sp = tokensOf (([[1]] : List (List Byte)).flatMap packProgram)
    ∧ core.run 8 chainWhole = .next (after 8 chainWhole) ∧ ended (after 8 chainWhole) .sp = true
    ∧ (pendOf (after 8 chainWhole) .su).isEmpty = true :=
  ⟨rfl, rfl, rfl, rfl, rfl, rfl, by decide, by decide, by decide, by decide, rfl, by decide, by decide⟩

/-- One octet accepted, at once or after idle moves of other agents. -/
def early : State := suRun [.put8 255] [.producer .su, .unit .su]
def late : State := { suRun [.put8 255] [.unit .su, .producer .su, .producer .sp, .unit .su] with sp := ⟨3#3, 1#8, false, []⟩ }

theorem test_witness_OutputDependsOnInputAlone :
    early.config.rangePolicy = late.config.rangePolicy ∧ fedByPeer early .su = false ∧ fedByPeer late .su = false
    ∧ blockOf early .su = blockOf late .su ∧ errOf early .su = errOf late .su ∧ pendOf early .su = pendOf late .su
    ∧ noReset .su early = true ∧ noReset .su late = true
    ∧ core.run 2 early = .next (after 2 early) ∧ core.run 4 late = .next (after 4 late)
    ∧ streamLeft early .su = [⟨false, 255⟩] ++ streamLeft (after 2 early) .su
    ∧ streamLeft late .su = [⟨false, 255⟩] ++ streamLeft (after 4 late) .su :=
  ⟨rfl, rfl, rfl, rfl, rfl, rfl, by decide, by decide, rfl, rfl, by decide, by decide⟩

theorem test_witness_UnwiredUnitsShareNothing :
    early.config = ({ early with sp := ⟨1#3, 1#8, false, []⟩ } : State).config
    ∧ early.config.spToSu = false ∧ early.config.suToSp = false
    ∧ early.schedule = ({ early with sp := ⟨1#3, 1#8, false, []⟩ } : State).schedule
    ∧ core.run 2 early = .next (after 2 early)
    ∧ core.run 2 { early with sp := ⟨1#3, 1#8, false, []⟩ } = .next (after 2 { early with sp := ⟨1#3, 1#8, false, []⟩ })
    ∧ early.su = ({ early with sp := ⟨1#3, 1#8, false, []⟩ } : State).su
    ∧ early.suPort = ({ early with sp := ⟨1#3, 1#8, false, []⟩ } : State).suPort
    ∧ core.run 2 { early with su := ⟨1#3, 1#8, []⟩ } = .next (after 2 { early with su := ⟨1#3, 1#8, []⟩ })
    ∧ early.sp = ({ early with su := ⟨1#3, 1#8, []⟩ } : State).sp
    ∧ early.spPort = ({ early with su := ⟨1#3, 1#8, []⟩ } : State).spPort :=
  ⟨rfl, rfl, rfl, rfl, rfl, rfl, rfl, rfl, rfl, rfl, rfl⟩

theorem test_witness_OpenSequenceGivesPrefix :
    (core.run 4 (spRun .fault [.put7 1, .put7 127] spMoves) = .next (after 4 (spRun .fault [.put7 1, .put7 127] spMoves))
      ∧ (spRun .fault [.put7 1, .put7 127] spMoves).config.suToSp = false
      ∧ (spRun .fault [.put7 1, .put7 127] spMoves).spPort.wasReset = true
      ∧ (spRun .fault [.put7 1, .put7 127] spMoves).sp = Packer.afterReset
      ∧ noReset .sp (spRun .fault [.put7 1, .put7 127] spMoves) = true ∧ allSeptets [1, 127] = true
      ∧ streamLeft (spRun .fault [.put7 1, .put7 127] spMoves) .sp = tokensOf ([1, 127].map putByte))
    ∧ (core.run 2 early = .next (after 2 early) ∧ early.config.spToSu = false ∧ early.suPort.wasReset = true
      ∧ early.su = Unpacker.afterReset ∧ noReset .su early = true ∧ streamLeft early .su = tokensOf ([255].map Instr.put8)) :=
  ⟨⟨rfl, rfl, rfl, rfl, by decide, by decide, by decide⟩, ⟨rfl, rfl, rfl, rfl, by decide, by decide⟩⟩

theorem test_witness_FairRunEnds :
    ((spRun .fault [.put7Oor 0] (fairSchedule .sp 1)).schedule = fairSchedule .sp 1
      ∧ (spRun .fault [.put7Oor 0] (fairSchedule .sp 1)).config.spToSu = false
      ∧ (spRun .fault [.put7Oor 0] (fairSchedule .sp 1)).config.suToSp = false
      ∧ (portOf (spRun .fault [.put7Oor 0] (fairSchedule .sp 1)) .sp).wasReset = true
      ∧ (portOf (spRun .fault [.put7Oor 0] (fairSchedule .sp 1)) .sp).rst = false
      ∧ pendOf (spRun .fault [.put7Oor 0] (fairSchedule .sp 1)) .sp = []
      ∧ (streamLeft (spRun .fault [.put7Oor 0] (fairSchedule .sp 1)) .sp).length ≤ 1)
    ∧ ((suAt 7 2).schedule = fairSchedule .su 0 ∧ (portOf (suAt 7 2) .su).wasReset = true
      ∧ (portOf (suAt 7 2) .su).rst = false ∧ pendOf (suAt 7 2) .su = [] ∧ (streamLeft (suAt 7 2) .su).length ≤ 0) := by decide

theorem test_witness_FinalRunsAreAtReset :
    (fedByPeer suWhole .su = false ∧ (portOf suWhole .su).wasReset = true ∧ atReset suWhole .su = true
      ∧ noReset .su suWhole = true ∧ wellFormedStream .su [.put8 255, .end8 0] = true
      ∧ streamLeft suWhole .su = tokensOf [.put8 255, .end8 0]
      ∧ core.run 6 suWhole = .next (after 6 suWhole) ∧ ended (after 6 suWhole) .su = true
      ∧ errOf (after 6 suWhole) .su = false ∧ closedStream [.put8 255, .end8 0] = true)
    ∧ (core.run 0 State.reset = .next State.reset ∧ fedByPeer State.reset .sp = false
      ∧ (portOf State.reset .sp).wasReset = true ∧ noReset .sp State.reset = true ∧ errOf State.reset .sp = false
      ∧ atReset State.reset .sp = true ∧ wellFormedStream .sp [] = true ∧ streamLeft State.reset .sp = tokensOf [] ∧ ended State.reset .sp = true
      ∧ closedStream [] = true) :=
  ⟨⟨rfl, rfl, by decide, by decide, by decide, by decide, rfl, by decide, by decide, by decide⟩,
    ⟨rfl, rfl, rfl, rfl, rfl, by decide, by decide, by decide, by decide, by decide⟩⟩

/-! ### Witnesses: the invariant -/

theorem test_witness_StepKeepsTheInvariant :
    MachineInv badByte ∧ step badByte = .next (after 1 badByte)
    ∧ MachineInv (after 4 chainWhole) ∧ step (after 4 chainWhole) = .next (after 1 (after 4 chainWhole)) :=
  ⟨by decide, rfl, by decide, rfl⟩

theorem test_witness_NothingOutlivesASequence :
    MachineInv suWhole ∧ core.run 5 suWhole = .next (after 5 suWhole) ∧ (portOf (after 5 suWhole) .su).wasReset = true
    ∧ (blockOf (after 5 suWhole) .su).1 = 0#3 ∧ Token.fin ∈ pendOf (after 5 suWhole) .su ∧ Token.fin.isEnd = true :=
  ⟨by decide, rfl, by decide, by decide, by decide, by decide⟩

end Sys2Proof.Tests
end

section
/-! PROOFS. Steps and runs: the scheduled move, what every run keeps, the host's moves, acceptance and its frame
(10 R20 to R29). -/

namespace Sys2Proof.Machine

theorem step_of_schedule_nil {s : State} (h : s.schedule = []) : step s = .next s := by
  simp only [step, nextMove, h]

theorem step_of_schedule_cons {s : State} {e : Event} {rest : List Event} (h : s.schedule = e :: rest) :
    step s = agentMove e { s with schedule := rest } := by
  simp only [step, nextMove, h]

/-- What every step keeps, every run keeps. -/
theorem run_keeps {P : State → Prop} (hstep : ∀ s m, P s → step s = .next m → P m) :
    ∀ {k : Nat} {s t : State}, P s → core.run k s = .next t → P t := by
  intro k
  induction k with
  | zero => intro s t hs h; cases h; exact hs
  | succ k ih =>
    intro s t hs h
    obtain ⟨m, hm, hrun⟩ := run_succ.1 h
    exact ih (hstep s m hs hm) hrun

/-! ### Reset and acceptance -/

/-- Settles O1: both units hold their reset values by definition. -/
theorem resetValuesOfTheUnits : Obligations.ResetValuesOfTheUnits :=
  ⟨rfl, rfl, rfl, rfl, rfl, rfl, rfl⟩

/-- A reset edge at the units whose line is driven (70 R160). -/
theorem onLines_resetEdge (l : RstLines) (level : Bool) (s : State) :
    onLines l (resetEdge level) s =
      { s with
        sp := if l.sp then Packer.afterReset else s.sp
        su := if l.su then Unpacker.afterReset else s.su
        spPort := if l.sp then { s.spPort with rst := level, wasReset := true } else s.spPort
        suPort := if l.su then { s.suPort with rst := level, wasReset := true } else s.suPort } := by
  simp only [onLines]
  split_ifs <;> rfl

/-- The pin goes to 0 at the units whose line is driven. -/
theorem onLines_releasePin (l : RstLines) (s : State) :
    onLines l releasePin s =
      { s with
        spPort := if l.sp then { s.spPort with rst := false } else s.spPort
        suPort := if l.su then { s.suPort with rst := false } else s.suPort } := by
  simp only [onLines]
  split_ifs <;> rfl

/-- Settles O2: the host's moves by what they do on each line. -/
theorem resetEdgeTakesResetState : Obligations.ResetEdgeTakesResetState := by
  intro s l rest
  constructor
  · intro held hs
    rw [step_of_schedule_cons hs]
    cases held with
    | false => exact congrArg _ (onLines_resetEdge l false _)
    | true => exact congrArg _ (onLines_resetEdge l true _)
  · intro hs
    rw [step_of_schedule_cons hs]
    exact congrArg _ (onLines_releasePin l _)

/-- Settles O3: the condition of each unit, read off `canAccept`; SU's latch is constantly 0. -/
theorem acceptanceCondition : Obligations.AcceptanceCondition := by
  intro s
  simp [canAccept, portOf, pendOf, errOf, and_assoc]

/-- Settles O4: presenting a token asks first whether its unit has been reset, then whether it accepts. -/
theorem unacceptedTokenHasNoEffect : Obligations.UnacceptedTokenHasNoEffect := by
  intro i s h
  cases hp : i.port with
  | sp =>
    rw [hp] at h
    rw [exec_eq_presentSp hp]
    cases hw : s.spPort.wasReset <;> simp [presentSp, portOf, h, hw]
  | su =>
    rw [hp] at h
    rw [exec_eq_presentSu hp]
    cases hw : s.suPort.wasReset <;> simp [presentSu, portOf, h, hw]

/-! ### What a token writes, and what changes the latch and the build -/

/-- No token but PUT7.OOR under `RANGE_POLICY = fault` writes `err` (10 R23). -/
theorem spEffect_err (policy : RangePolicy) (i : Instr) (p : Packer) :
    (spEffect policy i p).err = p.err ∨ (∃ d, i = .put7Oor d) ∧ policy = .fault := by
  have hconsume : ∀ x, (spConsume x p).err = p.err := fun x => by
    simp only [spConsume]
    split_ifs <;> rfl
  cases i with
  | put7 d => exact .inl (hconsume _)
  | put7Oor d =>
    cases policy with
    | fault => exact .inr ⟨⟨d, rfl⟩, rfl⟩
    | mask => exact .inl (hconsume _)
    | raw => exact .inl (hconsume _)
  | end7 x =>
    left
    simp only [spEffect, spFinish]
    split_ifs <;> rfl
  | put8 d => exact .inl rfl
  | end8 x => exact .inl rfl

/-- Settles O5: the token is taken, and its effect writes its unit's registers, or it waits. -/
theorem tokensWriteTheirUnitOnly : Obligations.TokensWriteTheirUnitOnly := by
  intro i s t h
  cases hp : i.port with
  | sp =>
    rw [exec_eq_presentSp hp] at h
    rcases presentSp_cases h with ⟨-, rfl⟩ | ⟨-, rfl⟩
    · exact ⟨fun _ => ⟨rfl, _, spEffect_pend _ i s.sp⟩, nofun, spEffect_err _ i s.sp⟩
    · exact ⟨fun _ => ⟨rfl, [], (List.append_nil _).symm⟩, nofun, .inl rfl⟩
  | su =>
    rw [exec_eq_presentSu hp] at h
    rcases presentSu_cases h with ⟨-, rfl⟩ | ⟨-, rfl⟩
    · exact ⟨nofun, fun _ => ⟨rfl, _, suEffect_pend i s.su⟩, .inl rfl⟩
    · exact ⟨nofun, fun _ => ⟨rfl, [], (List.append_nil _).symm⟩, .inl rfl⟩

/-- Settles O37: a quiet step keeps `err`, and SP accepts no token while it is 1. -/
theorem errFallsByResetOnly : Obligations.ErrFallsByResetOnly := by
  intro s t h herr herr'
  rcases step_unit_cases .sp h with hreset | hquiet | ⟨tok, hacc⟩
  · exact hreset.head
  · have hsame : t.sp.err = s.sp.err := hquiet.err
    rw [hsame, herr] at herr'
    cases herr'
  · have hclear : s.sp.err = false := errOf_of_canAccept hacc.can
    rw [hclear] at herr
    cases herr

/-- Settles O49: no step changes the build. -/
theorem buildNeverChanges : Obligations.BuildNeverChanges := fun _ s _ h =>
  run_keeps (P := fun m => m.config = s.config) (fun _ _ hm hstep => (step_config hstep).trans hm) rfl h

end Sys2Proof.Machine
end

section
/-! PROOFS. The invariant of the two units (10 R22, R24, R30; 42 R132). -/

namespace Sys2Proof.Machine

/-! ### Bytes and phases -/

theorem isSeptet_iff_le (x : Byte) : isSeptet x = true ↔ x.toNat ≤ 127 := by simp [isSeptet]

theorem isSeptet_septetOperand (d : Septet) : isSeptet (septetOperand d) = true := by revert d; decide

theorem isSeptet_firstSeptet (y : Byte) : isSeptet (firstSeptet y) = true := by
  rw [isSeptet_iff, firstSeptet_eq, BitVec.getLsbD_and, getLsbD_127]
  simp

theorem isSeptet_heldSeptet (prev : Byte) : isSeptet (heldSeptet prev) = true := by
  rw [isSeptet_iff, heldSeptet_eq]
  simp

/-- What is kept of `prev` and of the new octet both fit in 7 bits (41 R107, R108). -/
theorem isSeptet_septetFormed {q : Nat} (hq : q ≤ 7) (prev y : Byte) : isSeptet (septetFormed q prev y) = true := by
  have hbit : prev.getLsbD (8 - q + 7) = false := BitVec.getLsbD_of_ge _ _ (by omega)
  rw [isSeptet_iff, septetFormed_eq, BitVec.getLsbD_or, BitVec.getLsbD_and, getLsbD_127,
    BitVec.getLsbD_ushiftRight, hbit]
  simp

theorem phase_succ_ne_zero {f : Phase} (h : f ≠ 7#3) : f + 1#3 ≠ 0#3 := by
  revert h f; decide

@[simp] theorem ofData_isEnd (d : Byte) : (Token.ofData d).isEnd = false := rfl
@[simp] theorem ofData_data (d : Byte) : (Token.ofData d).data = d := rfl

theorem packerInv_afterReset (policy : RangePolicy) (rst : Bool) : PackerInv policy rst Packer.afterReset := by
  simp [PackerInv, Packer.afterReset]

theorem unpackerInv_afterReset (rst : Bool) : UnpackerInv rst Unpacker.afterReset := by
  simp [UnpackerInv, Unpacker.afterReset]

/-! #### A token keeps its unit's invariant -/

theorem spConsume_inv {policy : RangePolicy} {p : Packer} (x : Byte) (h : PackerInv policy false p) (hp : p.pend = [])
    (hx : policy ≠ .raw → isSeptet x = true) : PackerInv policy false (spConsume x p) := by
  obtain ⟨-, -, -, herr, -, -⟩ := h
  simp only [isSeptet_iff_le] at hx
  simp only [spConsume]
  split_ifs with h0 h7
  · simpa [PackerInv, hp] using ⟨hx, herr⟩
  · simpa [PackerInv, hp] using herr
  · simpa [PackerInv, hp, phase_succ_ne_zero h7] using ⟨hx, herr⟩

theorem spFinish_inv {policy : RangePolicy} {p : Packer} (h : PackerInv policy false p) (hp : p.pend = []) :
    PackerInv policy false (spFinish p) := by
  obtain ⟨-, -, -, herr, -, -⟩ := h
  simp only [spFinish]
  split_ifs <;> simpa [PackerInv, hp] using herr

theorem takeDomainError_inv {p : Packer} (h : PackerInv .fault false p) : PackerInv .fault false (takeDomainError p) := by
  obtain ⟨hlen, hblock, hprev, -, hend, -⟩ := h
  exact ⟨hlen, hblock, hprev, fun _ => rfl, hend, nofun⟩

/-- A token SP accepts keeps its invariant. -/
theorem spEffect_inv {policy : RangePolicy} {p : Packer} (i : Instr) (h : PackerInv policy false p) (hp : p.pend = []) :
    PackerInv policy false (spEffect policy i p) := by
  cases i with
  | put7 d => exact spConsume_inv _ h hp fun _ => isSeptet_septetOperand d
  | put7Oor d =>
    cases policy with
    | fault => exact takeDomainError_inv h
    | mask => exact spConsume_inv _ h hp fun _ => isSeptet_septetOperand d
    | raw => exact spConsume_inv _ h hp fun hraw => absurd rfl hraw
  | end7 x => exact spFinish_inv h hp
  | put8 d => exact h
  | end8 x => exact h

theorem suConsume_inv {p : Unpacker} (y : Byte) (hp : p.pend = []) : UnpackerInv false (suConsume y p) := by
  simp only [suConsume]
  split_ifs with h0 h7
  · simp [UnpackerInv, hp, isSeptet_firstSeptet]
  · simp [UnpackerInv, hp, isSeptet_firstSeptet, isSeptet_heldSeptet]
  · have hs := isSeptet_septetFormed (Nat.le_of_lt_succ p.phase.isLt) p.prev y
    simp [UnpackerInv, hp, phase_succ_ne_zero h7, hs]

theorem suFinish_inv {p : Unpacker} (hp : p.pend = []) : UnpackerInv false (suFinish p) := by
  have hfin : isSeptet Token.fin.data = true := by decide
  simp only [suFinish]
  split_ifs <;> simp [UnpackerInv, hp, isSeptet_heldSeptet, hfin]

/-- A token SU accepts keeps its invariant. -/
theorem suEffect_inv {p : Unpacker} (i : Instr) (h : UnpackerInv false p) (hp : p.pend = []) :
    UnpackerInv false (suEffect i p) := by
  cases i with
  | put7 d => exact h
  | put7Oor d => exact h
  | end7 x => exact h
  | put8 d => exact suConsume_inv _ hp
  | end8 x => exact suFinish_inv hp

/-! #### A step keeps each unit's invariant -/

/-- Letting go of the pin keeps SP's invariant. -/
theorem PackerInv.of_rst {policy : RangePolicy} {rst rst' : Bool} {p : Packer} (h : PackerInv policy rst p)
    (hrst : rst' = true → rst = true) : PackerInv policy rst' p := by
  obtain ⟨hlen, hblock, hprev, herr, hend, hheld⟩ := h
  exact ⟨hlen, hblock, hprev, herr, hend, fun hr => hheld (hrst hr)⟩

/-- A consumer that takes the head of `pend` keeps SP's invariant. -/
theorem PackerInv.of_pend {policy : RangePolicy} {p : Packer} {tok : Token} {q : List Token}
    (h : PackerInv policy false p) (hp : p.pend = tok :: q) : PackerInv policy false { p with pend := q } := by
  obtain ⟨hlen, hblock, hprev, herr, hend, -⟩ := h
  rw [hp] at hlen hend
  exact ⟨Nat.le_of_succ_le hlen, hblock, hprev, herr, fun t ht => hend t (List.mem_cons_of_mem _ ht), nofun⟩

/-- Letting go of the pin keeps SU's invariant. -/
theorem UnpackerInv.of_rst {rst rst' : Bool} {p : Unpacker} (h : UnpackerInv rst p)
    (hrst : rst' = true → rst = true) : UnpackerInv rst' p := by
  obtain ⟨hlen, hblock, hend, hdata, hheld⟩ := h
  exact ⟨hlen, hblock, hend, hdata, fun hr => hheld (hrst hr)⟩

/-- A consumer that takes the head of `pend` keeps SU's invariant. -/
theorem UnpackerInv.of_pend {p : Unpacker} {tok : Token} {q : List Token} (h : UnpackerInv false p)
    (hp : p.pend = tok :: q) : UnpackerInv false { p with pend := q } := by
  obtain ⟨hlen, hblock, hend, hdata, -⟩ := h
  rw [hp] at hlen hend hdata
  exact ⟨Nat.le_of_succ_le hlen, hblock, fun t ht => hend t (List.mem_cons_of_mem _ ht),
    fun t ht => hdata t (List.mem_cons_of_mem _ ht), nofun⟩

theorem Quiet.sp_eq {s t : State} (h : Quiet .sp s t) : t.sp = { s.sp with pend := t.sp.pend } := by
  obtain ⟨hphase, hprev⟩ := Prod.mk.inj h.block
  have herr : t.sp.err = s.sp.err := h.err
  simp only [← hphase, ← hprev, ← herr]

theorem Quiet.su_eq {s t : State} (h : Quiet .su s t) : t.su = { s.su with pend := t.su.pend } := by
  obtain ⟨hphase, hprev⟩ := Prod.mk.inj h.block
  simp only [← hphase, ← hprev]

/-- What `MachineInv` says of SP's registers. -/
def SpInv (s : State) : Prop := s.spPort.wasReset = true → PackerInv s.config.rangePolicy s.spPort.rst s.sp

/-- What `MachineInv` says of SU's registers. -/
def SuInv (s : State) : Prop := s.suPort.wasReset = true → UnpackerInv s.suPort.rst s.su

theorem step_spInv {s t : State} (hinv : SpInv s) (h : step s = .next t) : SpInv t := by
  intro hw
  rw [step_config h]
  rcases step_unit_cases .sp h with hreset | hquiet | ⟨tok, hacc⟩
  · have hregs : t.sp = Packer.afterReset := beq_iff_eq.1 hreset.regs
    rw [hregs]
    exact packerInv_afterReset _ _
  · have hs := hinv (hquiet.wasReset.symm.trans hw)
    rw [hquiet.sp_eq]
    rcases hquiet.delivered with ⟨-, hpend⟩ | ⟨tok, ⟨-, hrst⟩, hpend, -⟩
    · have hpend : t.sp.pend = s.sp.pend := hpend
      rw [hpend]
      exact hs.of_rst hquiet.rst
    · have hrst : s.spPort.rst = false := hrst
      rw [hrst] at hs
      exact (hs.of_pend hpend).of_rst fun hr => hrst.symm.trans (hquiet.rst hr)
  · have hs := hinv (wasReset_of_canAccept hacc.can)
    have hrst : s.spPort.rst = false := rst_of_canAccept hacc.can
    have hrst' : t.spPort.rst = s.spPort.rst := hacc.pins.1
    have hregs : t.sp = spEffect s.config.rangePolicy (decodeSp tok) s.sp := hacc.regs
    rw [hrst] at hs
    rw [hregs, hrst', hrst]
    exact spEffect_inv _ hs (pendOf_of_canAccept hacc.can)

theorem step_suInv {s t : State} (hinv : SuInv s) (h : step s = .next t) : SuInv t := by
  intro hw
  rcases step_unit_cases .su h with hreset | hquiet | ⟨tok, hacc⟩
  · have hregs : t.su = Unpacker.afterReset := beq_iff_eq.1 hreset.regs
    rw [hregs]
    exact unpackerInv_afterReset _
  · have hs := hinv (hquiet.wasReset.symm.trans hw)
    rw [hquiet.su_eq]
    rcases hquiet.delivered with ⟨-, hpend⟩ | ⟨tok, ⟨-, hrst⟩, hpend, -⟩
    · have hpend : t.su.pend = s.su.pend := hpend
      rw [hpend]
      exact hs.of_rst hquiet.rst
    · have hrst : s.suPort.rst = false := hrst
      rw [hrst] at hs
      exact (hs.of_pend hpend).of_rst fun hr => hrst.symm.trans (hquiet.rst hr)
  · have hs := hinv (wasReset_of_canAccept hacc.can)
    have hrst : s.suPort.rst = false := rst_of_canAccept hacc.can
    have hrst' : t.suPort.rst = s.suPort.rst := hacc.pins.1
    have hregs : t.su = suEffect (decodeSu tok) s.su := hacc.regs
    rw [hrst] at hs
    rw [hregs, hrst', hrst]
    exact suEffect_inv _ hs (pendOf_of_canAccept hacc.can)

/-! #### A step delivers only what stood in `pend` -/

/-- What holds of the tokens delivered by a unit, and of those in its queue once it has been reset, holds of the tokens
delivered after a step. -/
theorem step_output {P : Token → Prop} {u : UnitId} {s t : State} (h : step s = .next t)
    (hout : ∀ tok ∈ (portOf s u).output, P tok)
    (hpend : (portOf s u).wasReset = true → ∀ tok ∈ pendOf s u, P tok) : ∀ tok ∈ (portOf t u).output, P tok := by
  rcases step_unit_cases u h with hreset | hquiet | ⟨tok, hacc⟩
  · obtain ⟨level, hport⟩ := hreset.port
    rw [hport]
    exact hout
  · rcases hquiet.delivered with ⟨hsame, -⟩ | ⟨tok, ⟨hw, -⟩, hp, hgrown⟩
    · rw [hsame]
      exact hout
    · have hhead := hpend hw tok (hp ▸ List.mem_cons_self)
      rw [hgrown]
      simpa [or_imp, forall_and] using ⟨hout, hhead⟩
  · rw [hacc.output]
    exact hout

/-- Settles O59: each unit's registers by the case of the step (reset, quiet, one token accepted), and its deliveries
from the tokens that stood in `pend`. -/
theorem stepKeepsTheInvariant : Obligations.StepKeepsTheInvariant := by
  intro s t hinv h
  obtain ⟨hsp, hsu, hspOut, hsuOut⟩ := hinv
  refine ⟨step_spInv hsp h, step_suInv hsu h, step_output (u := .sp) h hspOut ?_, step_output (u := .su) h hsuOut ?_⟩
  · intro hw tok htok hend
    obtain ⟨-, -, -, -, hfin, -⟩ := hsp hw
    exact (hfin tok htok hend).1
  · intro hw tok htok
    obtain ⟨-, -, hfin, hdata, -⟩ := hsu hw
    exact ⟨hdata tok htok, fun hend => (hfin tok htok hend).1⟩

/-- Settles O58: both units hold their reset values, and nothing has been delivered. -/
theorem resetMeetsTheInvariant : Obligations.ResetMeetsTheInvariant :=
  ⟨fun _ => packerInv_afterReset _ _, fun _ => unpackerInv_afterReset _, nofun, nofun⟩

/-- In a unit that has been reset, a state that meets the invariant has nothing left of an ended sequence (10 R30). -/
theorem MachineInv.block_zero {s : State} {u : UnitId} (h : MachineInv s) (hw : (portOf s u).wasReset = true) :
    ((blockOf s u).1 = 0#3 → (blockOf s u).2 = 0#8)
    ∧ (∀ tok ∈ pendOf s u, tok.isEnd = true → (blockOf s u).1 = 0#3) := by
  obtain ⟨hsp, hsu, -, -⟩ := h
  cases u with
  | sp =>
    obtain ⟨-, hblock, -, -, hfin, -⟩ := hsp hw
    exact ⟨hblock, fun tok htok hend => (hfin tok htok hend).2⟩
  | su =>
    obtain ⟨-, hblock, hfin, -, -⟩ := hsu hw
    exact ⟨hblock, fun tok htok hend => (hfin tok htok hend).2⟩

/-- Settles O60: the run keeps the invariant, which says both. -/
theorem nothingOutlivesASequence : Obligations.NothingOutlivesASequence := by
  intro k s t u hinv hrun hw
  obtain ⟨hblock, hphase⟩ := MachineInv.block_zero (run_keeps stepKeepsTheInvariant hinv hrun) hw
  exact ⟨hblock, fun tok htok hend => Prod.ext (hphase tok htok hend) (hblock (hphase tok htok hend))⟩

end Sys2Proof.Machine
end

section
/-! PROOFS. What a unit emits is decided by what it accepts (10 R32). -/

namespace Sys2Proof.Machine

/-- Tokens already in `pend` stay in front of what SP emits and change nothing of it. -/
theorem spFeed_prepend (policy : RangePolicy) (ts q : List Token) : ∀ p : Packer,
    spFeed policy { p with pend := q ++ p.pend } ts
      = { spFeed policy p ts with pend := q ++ (spFeed policy p ts).pend } := by
  induction ts with
  | nil => intro p; rfl
  | cons t ts ih =>
    intro p
    have h := ih (spEffect policy (decodeSp t) p)
    rw [← spEffect_append] at h
    exact h

/-- Tokens already in `pend` stay in front of what SU emits and change nothing of it. -/
theorem suFeed_prepend (ts q : List Token) : ∀ p : Unpacker,
    suFeed { p with pend := q ++ p.pend } ts = { suFeed p ts with pend := q ++ (suFeed p ts).pend } := by
  induction ts with
  | nil => intro p; rfl
  | cons t ts ih =>
    intro p
    have h := ih (suEffect (decodeSu t) p)
    rw [← suEffect_append] at h
    exact h

/-- SP's history after a run, from the tokens it accepted: they are fed to its registers with `pend` emptied, and what
that emits follows what was emitted before. -/
theorem spHistory_of_accepted {k : Nat} {s t : State} {accepted : List Token} (hn : noReset .sp s = true)
    (hf : fedByPeer s .sp = false) (h : core.run k s = .next t) (ha : streamLeft s .sp = accepted ++ streamLeft t .sp) :
    spHistory t =
      { spFeed s.config.rangePolicy { s.sp with pend := [] } accepted with
        pend := emittedAll s .sp ++ (spFeed s.config.rangePolicy { s.sp with pend := [] } accepted).pend } := by
  obtain ⟨acc, hleft, hhist, -⟩ := sp_trace hn hf h
  obtain rfl : acc = accepted := List.append_cancel_right (hleft.symm.trans ha)
  rw [hhist, ← spFeed_prepend, List.append_nil, spHistory]

/-- SU's history after a run, from the tokens it accepted. -/
theorem suHistory_of_accepted {k : Nat} {s t : State} {accepted : List Token} (hn : noReset .su s = true)
    (hf : fedByPeer s .su = false) (h : core.run k s = .next t) (ha : streamLeft s .su = accepted ++ streamLeft t .su) :
    suHistory t =
      { suFeed { s.su with pend := [] } accepted with
        pend := emittedAll s .su ++ (suFeed { s.su with pend := [] } accepted).pend } := by
  obtain ⟨acc, hleft, hhist⟩ := su_trace hn hf h
  obtain rfl : acc = accepted := List.append_cancel_right (hleft.symm.trans ha)
  rw [hhist, ← suFeed_prepend, List.append_nil, suHistory]

/-- Settles O53: in both runs the unit's history is that of feeding the accepted tokens to the same registers. -/
theorem outputDependsOnInputAlone : Obligations.OutputDependsOnInputAlone := by
  intro u k k' s s' t t' accepted hpol hf hf' hblock herr _ hn hn' hrun hrun' hacc hacc'
  cases u with
  | sp =>
    have ht := spHistory_of_accepted hn hf hrun hacc
    have ht' := spHistory_of_accepted hn' hf' hrun' hacc'
    have hregs : ({ s.sp with pend := [] } : Packer) = { s'.sp with pend := [] } := by
      obtain ⟨hphase, hprev⟩ := Prod.mk.inj hblock
      have herr : s.sp.err = s'.sp.err := herr
      simp only [hphase, hprev, herr]
    rw [hregs, hpol] at ht
    simp only [spHistory, Packer.mk.injEq] at ht ht'
    obtain ⟨hphase, hprev, hlatch, hout⟩ := ht
    obtain ⟨hphase', hprev', hlatch', hout'⟩ := ht'
    refine ⟨?_, hlatch.trans hlatch'.symm, _, hout, hout'⟩
    simp only [blockOf, hphase, hprev, hphase', hprev']
  | su =>
    have ht := suHistory_of_accepted hn hf hrun hacc
    have ht' := suHistory_of_accepted hn' hf' hrun' hacc'
    have hregs : ({ s.su with pend := [] } : Unpacker) = { s'.su with pend := [] } := by
      obtain ⟨hphase, hprev⟩ := Prod.mk.inj hblock
      simp only [hphase, hprev]
    rw [hregs] at ht
    simp only [suHistory, Unpacker.mk.injEq] at ht ht'
    obtain ⟨hphase, hprev, hout⟩ := ht
    obtain ⟨hphase', hprev', hout'⟩ := ht'
    refine ⟨?_, rfl, _, hout, hout'⟩
    simp only [blockOf, hphase, hprev, hphase', hprev']

end Sys2Proof.Machine
end

section
/-! PROOFS. Unwired units share nothing (10 R20, 60 R149): a move of one unit's agent neither reads nor writes
the other. -/

namespace Sys2Proof.Machine

/-- Unit `u` with its port, the build and the schedule as in `s`; the other unit and its port as in `w`. -/
def graft (u : UnitId) (s w : State) : State :=
  match u with
  | .sp => { s with su := w.su, suPort := w.suPort }
  | .su => { s with sp := w.sp, spPort := w.spPort }

section
variable (u : UnitId) (s t w : State)

@[simp] theorem graft_self : graft u s s = s := by cases u <;> rfl
@[simp] theorem graft_graft_left : graft u (graft u s t) w = graft u s w := by cases u <;> rfl
@[simp] theorem graft_graft_right : graft u s (graft u t w) = graft u s w := by cases u <;> rfl
@[simp] theorem graft_schedule : (graft u s w).schedule = s.schedule := by cases u <;> rfl
@[simp] theorem graft_config : (graft u s w).config = s.config := by cases u <;> rfl
@[simp] theorem portOf_graft : portOf (graft u s w) u = portOf s u := by cases u <;> rfl
@[simp] theorem pendOf_graft : pendOf (graft u s w) u = pendOf s u := by cases u <;> rfl
@[simp] theorem fedByPeer_graft (v : UnitId) : fedByPeer (graft u s w) v = fedByPeer s v := by
  cases u <;> cases v <;> rfl
@[simp] theorem canAccept_graft : canAccept (graft u s w) u = canAccept s u := by cases u <;> rfl
@[simp] theorem setPort_graft (p : Port) : setPort (graft u s w) u p = graft u (setPort s u p) w := by cases u <;> rfl
@[simp] theorem takeOffer_graft : takeOffer u (graft u s w) = graft u (takeOffer u s) w := by cases u <;> rfl
@[simp] theorem deliverHead_graft (tok : Token) (q : List Token) :
    deliverHead u tok q (graft u s w) = graft u (deliverHead u tok q s) w := by cases u <;> rfl

theorem graft_withSchedule (l : List Event) :
    ({ graft u s w with schedule := l } : State) = graft u { s with schedule := l } w := by cases u <;> rfl

end

/-- Neither input port is wired. -/
def Unwired (s : State) : Prop := ∀ u, fedByPeer s u = false

theorem fedByPeer_of_config {s t : State} (h : t.config = s.config) (u : UnitId) : fedByPeer t u = fedByPeer s u := by
  cases u <;> simp only [fedByPeer, h]

theorem Unwired.of_config {s t : State} (hu : Unwired s) (h : t.config = s.config) : Unwired t := fun u =>
  (fedByPeer_of_config h u).trans (hu u)

/-! #### The moves of one unit do not read the other -/

/-- A token's outcome does not depend on the other unit. -/
theorem exec_graft {i : Instr} {s t : State} (w : State) (h : exec i s = .next t) :
    exec i (graft i.port s w) = .next (graft i.port t w) := by
  cases hc : canAccept s i.port with
  | true =>
    have hc' : canAccept (graft i.port s w) i.port = true := by rw [canAccept_graft, hc]
    cases hp : i.port with
    | sp =>
      rw [hp] at hc hc'
      rw [exec_eq_presentSp hp] at h ⊢
      rw [presentSp_accepts hc] at h
      cases h
      exact presentSp_accepts hc'
    | su =>
      rw [hp] at hc hc'
      rw [exec_eq_presentSu hp] at h ⊢
      rw [presentSu_accepts hc] at h
      cases h
      exact presentSu_accepts hc'
  | false =>
    rw [unacceptedTokenHasNoEffect i s hc] at h
    rw [unacceptedTokenHasNoEffect i _ (by rw [canAccept_graft, hc]), portOf_graft]
    split at h
    · cases h; exact if_pos ‹_›
    · cases h

theorem producerMove_graft (u : UnitId) (s w : State) :
    producerMove u (graft u s w) = graft u (producerMove u s) w := by
  simp only [producerMove, fedByPeer_graft, portOf_graft, setPort_graft]
  split
  · rfl
  · split <;> rfl

theorem unitMove_graft {u : UnitId} {s t : State} (w : State) (h : unitMove u s = .next t) :
    unitMove u (graft u s w) = .next (graft u t w) := by
  simp only [unitMove, fedByPeer_graft, portOf_graft, canAccept_graft, takeOffer_graft] at h ⊢
  split at h
  · rename_i hf
    cases h
    exact if_pos hf
  · rename_i hf
    rw [if_neg hf]
    split at h
    · cases h; rfl
    · rename_i tok _
      have hx := exec_graft w h
      rw [port_decodeToken] at hx
      rw [← hx]
      split <;> rfl

theorem consumerMove_graft {u : UnitId} {s t : State} (w : State) (hf : fedByPeer s u.peer = false)
    (h : consumerMove u s = .next t) : consumerMove u (graft u s w) = .next (graft u t w) := by
  simp only [consumerMove, fedByPeer_graft, portOf_graft, pendOf_graft, deliverHead_graft, hf] at h ⊢
  split at h
  · cases h
  · rename_i hw
    rw [if_neg hw]
    split at h
    · rename_i hr
      cases h
      exact if_pos hr
    · rename_i hr
      rw [if_neg hr]
      split at h <;> cases h <;> rfl

theorem withdrawMove_graft {u : UnitId} {s t : State} (w : State) (h : withdrawMove u s = .next t) :
    withdrawMove u (graft u s w) = .next (graft u t w) := by
  simp only [withdrawMove, portOf_graft] at h ⊢
  split at h <;> cases h
  rfl

/-- The host's moves act on each unit by itself. -/
theorem hostMove_graft (u : UnitId) (m : HostMove) (s w : State) :
    hostMove m (graft u s w) = graft u (hostMove m s) (hostMove m w) := by
  cases u <;> cases m <;> (simp only [hostMove, onLines]; split_ifs <;> rfl)

/-! #### The moves of one unit do not write the other -/

/-- The unit whose agent an event moves; none for the host, which moves at both. -/
def Event.actor : Event → Option UnitId
  | .producer u => some u
  | .unit u => some u
  | .consumer u => some u
  | .host _ => none
  | .withdraw u => some u

section
variable {u : UnitId} {s t : State}

@[simp] theorem graft_setPort_peer_right (u : UnitId) (s : State) (p : Port) :
    graft u s (setPort s u.peer p) = setPort s u.peer p := by cases u <;> rfl
@[simp] theorem graft_takeOffer_peer (u : UnitId) (s w : State) :
    graft u (takeOffer u.peer s) w = graft u s w := by cases u <;> rfl
@[simp] theorem graft_deliverHead_peer_right (u : UnitId) (s : State) (tok : Token) (q : List Token) :
    graft u s (deliverHead u.peer tok q s) = deliverHead u.peer tok q s := by cases u <;> rfl

theorem exec_writes_own {i : Instr} (hp : i.port = u.peer) (h : exec i s = .next t) : graft u s t = t := by
  obtain ⟨hconfig, hschedule, hspPort, hsuPort, hsu, hsp⟩ := exec_frame h
  obtain ⟨config, sp, su, spPort, suPort, schedule⟩ := t
  cases u with
  | sp => simp_all [graft, UnitId.peer]
  | su => simp_all [graft, UnitId.peer]

theorem unitMove_writes_own (h : unitMove u.peer s = .next t) : graft u s t = t := by
  rcases unitMove_cases h with rfl | ⟨tok, -, -, -, he⟩
  · exact graft_self u t
  · rw [← graft_takeOffer_peer]
    exact exec_writes_own (port_decodeToken _ _) he

theorem consumerMove_writes_own (hf : fedByPeer s u.peer.peer = false) (h : consumerMove u.peer s = .next t) :
    graft u s t = t := by
  rcases consumerMove_cases h with rfl | ⟨tok, q, -, -, -, ⟨-, rfl⟩ | ⟨hfed, -, -⟩⟩
  · exact graft_self u t
  · exact graft_deliverHead_peer_right u s tok q
  · rw [hf] at hfed; cases hfed

/-- On unwired ports a move of the other unit's agent leaves unit `u` as it is. -/
theorem agentMove_writes_own {e : Event} (hu : Unwired s) (he : e.actor = some u.peer)
    (h : agentMove e s = .next t) : graft u s t = t := by
  cases e with
  | producer v =>
    obtain rfl : v = u.peer := Option.some.inj he
    obtain rfl : producerMove u.peer s = t := Host.Outcome.next.inj h
    rcases producerMove_cases u.peer s with hp | ⟨_, _, -, -, -, hp⟩ <;> rw [hp]
    · exact graft_self u s
    · exact graft_setPort_peer_right u s _
  | unit v =>
    obtain rfl : v = u.peer := Option.some.inj he
    exact unitMove_writes_own h
  | consumer v =>
    obtain rfl : v = u.peer := Option.some.inj he
    exact consumerMove_writes_own (hu _) h
  | host m => cases he
  | withdraw v =>
    simp only [agentMove, withdrawMove] at h
    split at h <;> cases h
    exact graft_self u s

/-- On unwired ports a move of unit `u`'s agent does not read the other unit. -/
theorem agentMove_graft {e : Event} (w : State) (hu : Unwired s) (he : e.actor = some u)
    (h : agentMove e s = .next t) : agentMove e (graft u s w) = .next (graft u t w) := by
  cases e with
  | producer v =>
    obtain rfl : v = u := Option.some.inj he
    obtain rfl : producerMove v s = t := Host.Outcome.next.inj h
    exact congrArg _ (producerMove_graft v s w)
  | unit v =>
    obtain rfl : v = u := Option.some.inj he
    exact unitMove_graft w h
  | consumer v =>
    obtain rfl : v = u := Option.some.inj he
    exact consumerMove_graft w (hu _) h
  | host m => cases he
  | withdraw v =>
    obtain rfl : v = u := Option.some.inj he
    exact withdrawMove_graft w h

end

/-! #### Two machines that agree on one unit -/

theorem unit_eq_or_eq_peer (u v : UnitId) : v = u ∨ v = u.peer := by cases u <;> cases v <;> simp [UnitId.peer]

/-- The same move in two unwired machines that agree on unit `u` leaves them in agreement on it. -/
theorem agentMove_agree {e : Event} {u : UnitId} {s w t t' : State} (hu : Unwired s) (h : agentMove e s = .next t)
    (h' : agentMove e (graft u s w) = .next t') : graft u t t' = t' := by
  cases he : e.actor with
  | none =>
    cases e with
    | host m =>
      obtain rfl : hostMove m s = t := Host.Outcome.next.inj h
      obtain rfl : hostMove m (graft u s w) = t' := Host.Outcome.next.inj h'
      rw [hostMove_graft, graft_graft_right]
    | _ => cases he
  | some v =>
    rcases unit_eq_or_eq_peer u v with rfl | rfl
    · rw [agentMove_graft w hu he h] at h'
      cases h'
      exact graft_graft_right ..
    · have hu' : Unwired (graft u s w) := hu.of_config (graft_config u s w)
      have ht := agentMove_writes_own hu he h
      have ht' := agentMove_writes_own hu' he h'
      rw [graft_graft_left] at ht'
      rw [← ht, graft_graft_left, ht']

/-- A step of two unwired machines that agree on unit `u` leaves them in agreement on it. -/
theorem step_agree {u : UnitId} {s s' t t' : State} (hu : Unwired s) (hs : graft u s s' = s') (h : step s = .next t)
    (h' : step s' = .next t') : graft u t t' = t' := by
  have hsched : s'.schedule = s.schedule := by rw [← hs, graft_schedule]
  cases hl : s.schedule with
  | nil =>
    rw [step_of_schedule_nil hl] at h
    rw [step_of_schedule_nil (hsched.trans hl)] at h'
    cases h; cases h'
    exact hs
  | cons e rest =>
    rw [step_of_schedule_cons hl] at h
    rw [step_of_schedule_cons (hsched.trans hl), ← hs, graft_withSchedule] at h'
    have hu' : Unwired { s with schedule := rest } := hu.of_config rfl
    exact agentMove_agree hu' h h'

/-- So does a run of as many steps of each. -/
theorem run_agree {u : UnitId} : ∀ {k : Nat} {s s' t t' : State}, Unwired s → graft u s s' = s' →
    core.run k s = .next t → core.run k s' = .next t' → graft u t t' = t' := by
  intro k
  induction k with
  | zero => intro s s' t t' _ hs h h'; cases h; cases h'; exact hs
  | succ k ih =>
    intro s s' t t' hu hs h h'
    obtain ⟨m, hm, hrun⟩ := run_succ.1 h
    obtain ⟨m', hm', hrun'⟩ := run_succ.1 h'
    exact ih (hu.of_config (step_config hm)) (step_agree hu hs hm hm') hrun hrun'

/-- Settles O54: two machines that agree on a unit are a graft of one onto the other, and every step keeps that. -/
theorem unwiredUnitsShareNothing : Obligations.UnwiredUnitsShareNothing := by
  intro k s s' t t' hconfig hsu hsp hsched hrun hrun'
  have hu : Unwired s := fun u => by cases u <;> assumption
  constructor
  · intro hregs hport
    have h := run_agree (u := .sp) hu (by simp [graft, hconfig, hsched, hregs, hport]) hrun hrun'
    rw [← h]
    exact ⟨rfl, rfl⟩
  · intro hregs hport
    have h := run_agree (u := .su) hu (by simp [graft, hconfig, hsched, hregs, hport]) hrun hrun'
    rw [← h]
    exact ⟨rfl, rfl⟩

end Sys2Proof.Machine
end

section
/-! PROOFS. The order of the bits in a packed block, and of the tokens on the ports (20 R43, R49, R51). -/

namespace Sys2Proof.Machine

/-! ### Bit numbers of a packed block -/

theorem getLsbD_of_isSeptet {x : Byte} (h : isSeptet x = true) {m : Nat} (hm : 7 ≤ m) : x.getLsbD m = false := by
  rcases Nat.eq_or_lt_of_le hm with rfl | hlt
  · exact (isSeptet_iff x).1 h
  · exact BitVec.getLsbD_of_ge _ _ hlt

/-- Past the end of a septet sequence the default 0 is a septet too. -/
theorem isSeptet_getD {xs : List Byte} (h : allSeptets xs = true) (k : Nat) : isSeptet (xs.getD k 0#8) = true := by
  rcases Nat.lt_or_ge k xs.length with hk | hk
  · rw [List.getD_eq_getElem _ _ hk]
    exact List.all_eq_true.1 h _ (List.getElem_mem hk)
  · rw [List.getD_eq_default _ _ hk]
    decide

/-- Octet `k` of a block is what septet `k` has left above its `k` lowest bits, with septet `k + 1` above that
(40 R80). -/
theorem packBlock8_getD (a b c d e f g h : Byte) {k : Nat} (hk : k < 7) :
    (packBlock8 a b c d e f g h).getD k 0#8
      = [a, b, c, d, e, f, g, h].getD k 0#8 >>> k ||| [a, b, c, d, e, f, g, h].getD (k + 1) 0#8 <<< (7 - k) := by
  rw [packBlock8_eq]
  interval_cases k <;> simp

/-- Bit `n` of octet `k` is bit `k + n` of septet `k`, or, past that septet's 7 bits, bit `k + n - 7` of the next. -/
theorem packBlock8_getLsbD {a b c d e f g h : Byte} (hs : allSeptets [a, b, c, d, e, f, g, h] = true) {k n : Nat}
    (hk : k < 7) (hn : n < 8) :
    ((packBlock8 a b c d e f g h).getD k 0#8).getLsbD n
      = if k + n < 7 then ([a, b, c, d, e, f, g, h].getD k 0#8).getLsbD (k + n)
        else ([a, b, c, d, e, f, g, h].getD (k + 1) 0#8).getLsbD (k + n - 7) := by
  rw [packBlock8_getD _ _ _ _ _ _ _ _ hk, BitVec.getLsbD_or, BitVec.getLsbD_ushiftRight, BitVec.getLsbD_shiftLeft]
  split_ifs with hlow
  · have hbelow : n < 7 - k := by omega
    simp [hbelow]
  · have habove : ¬ n < 7 - k := by omega
    have hbit : n - (7 - k) = k + n - 7 := by omega
    rw [getLsbD_of_isSeptet (isSeptet_getD hs k) (Nat.le_of_not_lt hlow), hbit]
    simp [hn, habove]

/-- Settles O21: bit `n` of octet `k` has number `8k + n = 7k + (k + n)` in the block, so it is in septet `k` if
`k + n < 7` and in septet `k + 1` if not. -/
theorem packKeepsBitNumbers : Obligations.PackKeepsBitNumbers := by
  intro a b c d e f g h hs j i hj hi
  rw [packBlock8_getLsbD hs (by omega) (by omega)]
  split_ifs with hlow
  · have hoctet : (7 * j + i) / 8 = j := by omega
    have hbit : j + (7 * j + i) % 8 = i := by omega
    rw [hoctet, hbit]
  · have hoctet : (7 * j + i) / 8 + 1 = j := by omega
    have hbit : (7 * j + i) / 8 + (7 * j + i) % 8 - 7 = i := by omega
    rw [hoctet, hbit]

/-! ### The order of the tokens on a unit's ports -/

/-- Settles O44: a reset and a quiet step leave the stream; a token is accepted from the unit's own port, where it is
the first of the stream, or over a wire, which leaves the port. -/
theorem inputIsTakenInOrder : Obligations.InputIsTakenInOrder := by
  intro s t u h
  rcases step_unit_cases u h with hreset | hquiet | ⟨tok, hacc⟩
  · obtain ⟨level, hport⟩ := hreset.port
    left
    simp [streamLeft, hport]
  · exact .inl ⟨hquiet.left, hquiet.offer⟩
  · rcases hacc.source with ⟨-, hoffer, hport, rest, hsched⟩ | ⟨-, hport, -⟩
    · exact .inr ⟨tok, rest, hoffer, by simp [streamLeft, hoffer, hport], hacc.can, hsched⟩
    · left
      simp [streamLeft, hport]

/-- An accepted token leaves at most two tokens in its unit's queue, which was empty (40 R92, 41 R112). -/
theorem Accepts.pend_length {u : UnitId} {tok : Token} {s t : State} (h : Accepts u tok s t) :
    (pendOf t u).length ≤ 2 := by
  have hempty := pendOf_of_canAccept h.can
  have hregs := h.regs
  cases u with
  | sp =>
    simp only [pendOf, hregs]
    exact spEffect_pend_length _ _ _ hempty
  | su =>
    simp only [pendOf, hregs]
    exact suEffect_pend_length _ _ hempty

/-- All that an accepted token adds to what its unit has emitted is what it leaves in `pend`. -/
theorem Accepts.emittedAll_eq {u : UnitId} {tok : Token} {s t : State} (h : Accepts u tok s t) :
    emittedAll t u = emittedAll s u ++ pendOf t u := by
  simp only [emittedAll, h.output, pendOf_of_canAccept h.can, List.append_nil]

/-- Settles O45: a quiet step emits nothing and delivers the head of `pend` or nothing; an accepted token emits at most
two and delivers nothing. -/
theorem outputIsDeliveredInOrder : Obligations.OutputIsDeliveredInOrder := by
  intro s t u h hnoReset
  rcases step_unit_cases u h with hreset | hquiet | ⟨tok, hacc⟩
  · obtain ⟨e, rest, hsched, he⟩ := hreset.head
    simp [hsched, he] at hnoReset
  · refine ⟨⟨[], by simp [hquiet.emitted], Nat.zero_le 2, fun hne => absurd rfl hne⟩, ?_⟩
    rcases hquiet.delivered with ⟨hsame, -⟩ | ⟨tok, -, hpend, hgrown⟩
    · exact .inl hsame
    · exact .inr ⟨tok, by simp [hpend], hgrown⟩
  · exact ⟨⟨pendOf t u, hacc.emittedAll_eq, hacc.pend_length, fun _ => hacc.can⟩, .inl hacc.output⟩

end Sys2Proof.Machine
end

section
/-! PROOFS. Token words, their decoders and the encoder (30 R60 to R69), and the host's question of a bare word (log 12). -/

namespace Sys2Proof.Machine

/-! ### Words and tokens -/

theorem cons_getLsbD_setWidth {n : Nat} (x : BitVec (n + 1)) : BitVec.cons (x.getLsbD n) (x.setWidth n) = x := by
  have hmsb : x.msb = x.getLsbD n := BitVec.msb_eq_getLsbD_last x
  rw [← hmsb, BitVec.cons_msb_setWidth]

theorem toWord_eq_cons (t : Token) : t.toWord = BitVec.cons t.isEnd t.data := rfl

@[simp] theorem toWord_ofWord (w : TokenWord) : (Token.ofWord w).toWord = w :=
  cons_getLsbD_setWidth w

@[simp] theorem ofWord_toWord (t : Token) : Token.ofWord t.toWord = t := by
  simp [Token.ofWord, toWord_eq_cons, BitVec.getElem_cons]

/-! ### The decoder by its bits (30 R66) -/

theorem decodeSp_isEnd {t : Token} (h : t.isEnd = true) : decodeSp t = .end7 t.data := by
  simp only [decodeSp, h, if_true]

theorem decodeSp_high {t : Token} (hend : t.isEnd = false) (h7 : t.data.getLsbD 7 = true) :
    decodeSp t = .put7Oor (t.data.setWidth 7) := by
  simp only [decodeSp, hend, h7, Bool.false_eq_true, if_false, if_true]

theorem decodeSp_low {t : Token} (hend : t.isEnd = false) (h7 : t.data.getLsbD 7 = false) :
    decodeSp t = .put7 (t.data.setWidth 7) := by
  simp only [decodeSp, hend, h7, Bool.false_eq_true, if_false]

theorem decodeSu_isEnd {t : Token} (h : t.isEnd = true) : decodeSu t = .end8 t.data := by
  simp only [decodeSu, h, if_true]

theorem decodeSu_data {t : Token} (h : t.isEnd = false) : decodeSu t = .put8 t.data := by
  simp only [decodeSu, h, Bool.false_eq_true, if_false]

/-! ### The encoder and the decoders are inverse (30 R60, R62) -/

/-- SP's two data tokens carry the byte whose bit 7 tells them apart. -/
theorem encodeToken_put7 (d : Septet) : encodeToken (.put7 d) = ⟨false, BitVec.cons false d⟩ := rfl

theorem encodeToken_put7Oor (d : Septet) : encodeToken (.put7Oor d) = ⟨false, BitVec.cons true d⟩ := rfl

theorem encodeToken_decodeSp (t : Token) : encodeToken (decodeSp t) = t := by
  have hbyte := cons_getLsbD_setWidth (n := 7) t.data
  cases hend : t.isEnd with
  | true => rw [decodeSp_isEnd hend, encodeToken, ← hend]
  | false =>
    cases h7 : t.data.getLsbD 7 with
    | true =>
      rw [h7] at hbyte
      rw [decodeSp_high hend h7, encodeToken_put7Oor, hbyte, ← hend]
    | false =>
      rw [h7] at hbyte
      rw [decodeSp_low hend h7, encodeToken_put7, hbyte, ← hend]

theorem encodeToken_decodeSu (t : Token) : encodeToken (decodeSu t) = t := by
  cases hend : t.isEnd with
  | true => rw [decodeSu_isEnd hend, encodeToken, ← hend]
  | false => rw [decodeSu_data hend, encodeToken, ← hend]

theorem encodeToken_decodeToken (u : UnitId) (t : Token) : encodeToken (decodeToken u t) = t := by
  cases u
  · exact encodeToken_decodeSp t
  · exact encodeToken_decodeSu t

theorem decodeToken_encodeToken (i : Instr) : decodeToken i.port (encodeToken i) = i := by
  cases i with
  | put7 d => exact decodeSp_put7 d
  | put7Oor d => exact decodeSp_put7Oor d
  | end7 x => rfl
  | put8 d => rfl
  | end8 x => rfl

theorem encode_decode (u : UnitId) (w : TokenWord) : encode (decode u w) = w := by
  rw [encode, decode, encodeToken_decodeToken, toWord_ofWord]

theorem decode_encode (i : Instr) : decode i.port (encode i) = i := by
  rw [decode, encode, ofWord_toWord, decodeToken_encodeToken]

theorem wellFormedAt_iff {u : UnitId} {i : Instr} : i.wellFormedAt u = true ↔ i.port = u := by
  simp [Instr.wellFormedAt]

theorem map_decodeToken_tokensOf {u : UnitId} {is : List Instr} (h : wellFormedStream u is = true) :
    (tokensOf is).map (decodeToken u) = is := by
  rw [tokensOf, List.map_map, List.map_congr_left (g := id), List.map_id]
  intro i hi
  obtain rfl := wellFormedAt_iff.1 (List.all_eq_true.1 h i hi)
  exact decodeToken_encodeToken i

theorem decodeNat_eq_ok_iff {u : UnitId} {w : Nat} {i : Instr} :
    decodeNat u w = .ok i ↔ w < 512 ∧ i = decode u (BitVec.ofNat 9 w) := by
  unfold decodeNat
  split_ifs with hw <;> simp [hw, eq_comm]

/-- Settles O6: `ofWord` and `toWord` are inverse, and so are `decodeToken` and `encodeToken` at an instruction's port. -/
theorem decodeEncodeAgree : Obligations.DecodeEncodeAgree := by
  intro u
  refine ⟨fun w => ⟨encode_decode u w, wellFormedAt_iff.2 (port_decodeToken u _)⟩, ?_,
    fun is h => map_decodeToken_tokensOf h, fun w => by simp [decodeNat_eq_ok_iff]⟩
  intro i h
  obtain rfl := wellFormedAt_iff.1 h
  exact decode_encode i

/-! ### The opcode map (30 R66) -/

/-- The END rows' and PUT8's mask keeps bit 8. -/
theorem and_mask_0x100 : ∀ w : TokenWord, w &&& 0x100 = if w.getLsbD 8 then 0x100 else 0x000 := by decide

/-- The mask of SP's data rows keeps bits 8 and 7. -/
theorem and_mask_0x180 : ∀ w : TokenWord, w &&& 0x180 =
    (if w.getLsbD 8 then 0x100 else 0x000) ||| (if w.getLsbD 7 then 0x080 else 0x000) := by decide

theorem matchingRows_sp (w : TokenWord) : matchingRows .sp w =
    [if w.getLsbD 8 then ⟨.sp, "END7", 0x100, 0x100⟩
      else if w.getLsbD 7 then ⟨.sp, "PUT7.OOR", 0x080, 0x180⟩ else ⟨.sp, "PUT7", 0x000, 0x180⟩] := by
  simp only [matchingRows, opcodeRows, List.filter_cons, List.filter_nil, and_mask_0x100, and_mask_0x180]
  cases w.getLsbD 8 <;> cases w.getLsbD 7 <;> rfl

theorem matchingRows_su (w : TokenWord) : matchingRows .su w =
    [if w.getLsbD 8 then ⟨.su, "END8", 0x100, 0x100⟩ else ⟨.su, "PUT8", 0x000, 0x100⟩] := by
  simp only [matchingRows, opcodeRows, List.filter_cons, List.filter_nil, and_mask_0x100, and_mask_0x180]
  cases w.getLsbD 8 <;> cases w.getLsbD 7 <;> rfl

theorem mnemonic_decodeSp (t : Token) : (decodeSp t).mnemonic =
    if t.isEnd then "END7" else if t.data.getLsbD 7 then "PUT7.OOR" else "PUT7" := by
  rw [decodeSp]
  split_ifs <;> rfl

theorem mnemonic_decodeSu (t : Token) : (decodeSu t).mnemonic = if t.isEnd then "END8" else "PUT8" := by
  rw [decodeSu]
  split_ifs <;> rfl

theorem ofWord_isEnd (w : TokenWord) : (Token.ofWord w).isEnd = w.getLsbD 8 := rfl

theorem ofWord_data_getLsbD_seven (w : TokenWord) : (Token.ofWord w).data.getLsbD 7 = w.getLsbD 7 := by
  simp [Token.ofWord]

/-- Settles O7: bits 8 and 7 of the word choose the row, and the decoder reads the same bits. -/
theorem everyWordMatchesOneRow : Obligations.EveryWordMatchesOneRow := by
  intro u w
  cases u with
  | sp =>
    rw [matchingRows_sp, decode, decodeToken, mnemonic_decodeSp, ofWord_isEnd, ofWord_data_getLsbD_seven]
    split_ifs <;> rfl
  | su =>
    rw [matchingRows_su, decode, decodeToken, mnemonic_decodeSu, ofWord_isEnd]
    split_ifs <;> rfl

/-- Settles O8: eight fixed words, evaluated. -/
theorem writtenWordsDecode : Obligations.WrittenWordsDecode := by
  unfold Obligations.WrittenWordsDecode
  decide

/-! ### END tokens and output tokens (30 R63, R68) -/

theorem exec_end7 (x : Byte) (s : State) : exec (.end7 x) s = presentSp spFinish s := rfl

theorem exec_end8 (x : Byte) (s : State) : exec (.end8 x) s = presentSu suFinish s := rfl

/-- Settles O9: an END token decodes to END7 or END8, whose meaning reads no operand. -/
theorem endDataBitsAreIgnored : Obligations.EndDataBitsAreIgnored := by
  intro u t t' s h h'
  cases u with
  | sp => simp only [decodeToken, decodeSp_isEnd h, decodeSp_isEnd h', exec_end7]
  | su => simp only [decodeToken, decodeSu_isEnd h, decodeSu_isEnd h', exec_end8]

/-- Settles O10: the decoders by bit 8 of the token, and bit 7 of a septet, which is 0. -/
theorem outputTokensChain : Obligations.OutputTokensChain :=
  ⟨fun _ => decodeSu_data rfl, fun d hd => decodeSp_low rfl ((isSeptet_iff d).1 hd), decodeSu_isEnd rfl,
    decodeSp_isEnd rfl⟩

/-! ### The word the host places (log 12) -/

theorem decodeTableWord_eq_some {nbits w : Nat} {i : Instr} (h : decodeTableWord nbits w = some i) :
    i = decode .sp (BitVec.ofNat 9 w) := by
  simp only [decodeTableWord] at h
  split at h
  · next j hj =>
    cases h
    exact (decodeNat_eq_ok_iff.1 hj).2
  · cases h

/-- A unit runs the token its producer offers, and the token leaves the port, if the unit accepts. -/
theorem unitMove_accepts {u : UnitId} {s : State} {tok : Token} (hfed : fedByPeer s u = false)
    (hoffer : (portOf s u).offer = some tok) (hcan : canAccept s u = true) :
    unitMove u s = exec (decodeToken u tok) (takeOffer u s) := by
  simp [unitMove, hfed, hoffer, hcan]

/-- Settles O42: the placed word is on offer at SP's unwired port, and SP accepts it. -/
theorem fetchedWordIsRun : Obligations.FetchedWordIsRun := by
  intro s nbits w i hcan hi
  obtain rfl := decodeTableWord_eq_some hi
  rw [step_of_schedule_cons (s := s.withFetchWord nbits w) rfl]
  exact unitMove_accepts (u := .sp) rfl rfl hcan

end Sys2Proof.Machine
end

section
/-! PROOFS. SP's tokens and the packed blocks (40 R80 to R92): the result of each token, `pack` by blocks, and SP over
whole sequences. -/

namespace Sys2Proof.Machine

/-! ### A data byte and END in SP's registers -/

theorem spConsume_of_phase_eq_zero {p : Packer} (h : p.phase = 0#3) (x : Byte) :
    spConsume x p = { p with phase := 1#3, prev := x } := by
  simp only [spConsume, h, if_true, spSetBlock]

theorem spConsume_of_phase_ne_zero {p : Packer} (h : p.phase ≠ 0#3) (x : Byte) :
    spConsume x p =
      { p with
        phase := if p.phase = 7#3 then 0#3 else p.phase + 1#3
        prev := if p.phase = 7#3 then 0#8 else x
        pend := p.pend ++ [Token.ofData (p.prev >>> (p.phase.toNat - 1) ||| x <<< (8 - p.phase.toNat))] } := by
  simp only [spConsume, h, if_false, spSetBlock, spEmit, octetFormed_eq]
  by_cases h7 : p.phase = 7#3
  · simp [h7]
  · simp [h7]

theorem spFinish_eq (p : Packer) :
    spFinish p =
      { p with
        phase := 0#3
        prev := 0#8
        pend := p.pend ++
          if p.phase = 0#3 then [Token.fin] else [Token.ofData (p.prev >>> (p.phase.toNat - 1)), Token.fin] } := by
  simp only [spFinish, spSetBlock, spEmit, lastOctet_eq]
  split_ifs <;> simp

theorem spConsume_pend_length {p : Packer} (hp : p.pend = []) (x : Byte) :
    (spConsume x p).pend.length = if p.phase = 0#3 then 0 else 1 := by
  by_cases h : p.phase = 0#3
  · simp [spConsume_of_phase_eq_zero h, hp, h]
  · simp [spConsume_of_phase_ne_zero h, hp, h]

theorem spFinish_pend_length {p : Packer} (hp : p.pend = []) :
    (spFinish p).pend.length = if p.phase = 0#3 then 1 else 2 := by
  rw [spFinish_eq]
  by_cases h : p.phase = 0#3
  · simp [hp, h]
  · simp [hp, h]

/-! ### The result of each token SP accepts -/

section
variable {s : State}

theorem exec_put7_accepts (h : canAccept s .sp = true) (d : Septet) :
    exec (.put7 d) s = .next { s with sp := spConsume (septetOperand d) s.sp } :=
  presentSp_accepts h

theorem exec_end7_accepts (h : canAccept s .sp = true) (x : Byte) :
    exec (.end7 x) s = .next { s with sp := spFinish s.sp } :=
  presentSp_accepts h

theorem exec_put7Oor_fault (h : canAccept s .sp = true) (hpol : s.config.rangePolicy = .fault) (d : Septet) :
    exec (.put7Oor d) s = .next { s with sp := takeDomainError s.sp } := by
  rw [exec_eq_presentSp rfl, presentSp_accepts h, hpol]
  rfl

theorem exec_put7Oor_mask (h : canAccept s .sp = true) (hpol : s.config.rangePolicy = .mask) (d : Septet) :
    exec (.put7Oor d) s = exec (.put7 d) s := by
  rw [exec_eq_presentSp rfl, presentSp_accepts h, hpol, exec_put7_accepts h]
  rfl

theorem exec_put7Oor_raw (h : canAccept s .sp = true) (hpol : s.config.rangePolicy = .raw) (d : Septet) :
    exec (.put7Oor d) s = .next { s with sp := spConsume (BitVec.ofNat 8 (128 + d.toNat)) s.sp } := by
  rw [exec_eq_presentSp rfl, presentSp_accepts h, hpol, ← outOfRangeByte_eq]
  rfl

end

/-- Settles O11: the byte of a block's first septet is held in `prev`. -/
theorem put7OpensBlock : Obligations.Put7OpensBlock := by
  intro d s hcan hphase
  rw [exec_put7_accepts hcan, spConsume_of_phase_eq_zero hphase]
  rfl

/-- Settles O12: the octet is appended to `pend`, which is empty where SP accepts. -/
theorem put7CompletesOctet : Obligations.Put7CompletesOctet := by
  intro d s hcan hphase
  have hpend : s.sp.pend = [] := pendOf_of_canAccept hcan
  rw [exec_put7_accepts hcan, spConsume_of_phase_ne_zero hphase, hpend]
  rfl

/-- Settles O13: by policy, and under `raw` by phase. -/
theorem outOfRangeByPolicy : Obligations.OutOfRangeByPolicy := by
  intro d s hcan
  have hpend : s.sp.pend = [] := pendOf_of_canAccept hcan
  refine ⟨fun hfault => exec_put7Oor_fault hcan hfault d, fun hmask => exec_put7Oor_mask hcan hmask d, ?_, ?_⟩
  · intro hraw hphase
    rw [exec_put7Oor_raw hcan hraw, spConsume_of_phase_eq_zero hphase]
  · intro hraw hphase
    rw [exec_put7Oor_raw hcan hraw, spConsume_of_phase_ne_zero hphase, hpend]
    rfl

/-- Settles O14: what END7 emits is appended to `pend`, which is empty where SP accepts. -/
theorem end7FlushesBlock : Obligations.End7FlushesBlock := by
  intro x s hcan
  have hpend : s.sp.pend = [] := pendOf_of_canAccept hcan
  rw [exec_end7_accepts hcan, spFinish_eq, hpend]
  rfl

/-- Settles O15: PUT7.OOR by policy; the other tokens by the length of what they append to the empty `pend`. -/
theorem packerOutputBound : Obligations.PackerOutputBound := by
  intro s hcan
  have hpend : s.sp.pend = [] := pendOf_of_canAccept hcan
  refine ⟨fun d => ⟨_, exec_put7_accepts hcan d, spConsume_pend_length hpend _⟩, fun d => ?_,
    fun x => ⟨_, exec_end7_accepts hcan x, spFinish_pend_length hpend⟩⟩
  cases hpol : s.config.rangePolicy with
  | fault => exact ⟨_, exec_put7Oor_fault hcan hpol d, by simp [hpend]⟩
  | mask =>
    rw [exec_put7Oor_mask hcan hpol]
    exact ⟨_, exec_put7_accepts hcan d, by simp [spConsume_pend_length hpend]⟩
  | raw => exact ⟨_, exec_put7Oor_raw hcan hpol d, by simp [spConsume_pend_length hpend]⟩

/-! ### `pack` by blocks -/

/-- Settles O33: by blocks of `xs`; the only sequence shorter than a block whose length is divisible by 8 is empty. -/
theorem packBlocksAreIndependent : Obligations.PackBlocksAreIndependent := by
  intro xs ys
  induction xs using block8_induct with
  | short xs hlen =>
    intro hmod
    have hnil : xs = [] := List.eq_nil_of_length_eq_zero (by omega)
    rw [hnil]
    rfl
  | step a b c d e f g h rest ih =>
    intro hmod
    have hrest : rest.length % 8 = 0 := by
      simp only [List.length_cons] at hmod
      omega
    simp only [List.cons_append, pack_cons8, ih hrest, List.append_assoc]

/-- Octet `i` of a partial block whose first septet stands at position `j`: its septet and the next one; past the last
septet the default 0 adds nothing, as an absent septet does (40 R82). -/
theorem packPartial_getD : ∀ (s : List Byte) (j i : Nat), i < s.length →
    (packPartial j s).getD i 0#8 = s.getD i 0#8 >>> (j + i) ||| s.getD (i + 1) 0#8 <<< (7 - (j + i)) := by
  intro s
  induction s with
  | nil => intro j i hi; cases hi
  | cons x r ih =>
    intro j i hi
    cases r with
    | nil =>
      obtain rfl : i = 0 := Nat.lt_one_iff.1 hi
      simp [packPartial_one]
    | cons y r =>
      rw [packPartial_cons]
      cases i with
      | zero => simp
      | succ i =>
        have hpos : j + 1 + i = j + (i + 1) := by omega
        have hnext := ih (j + 1) i (Nat.lt_of_succ_lt_succ hi)
        rw [hpos] at hnext
        exact hnext

/-- Settles O31: a sequence of 1 to 7 septets is one partial block, and its last octet has no next septet. -/
theorem partialBlockOctets : Obligations.PartialBlockOctets := by
  intro s hpos hlen
  rw [pack_short s (Nat.lt_succ_of_le hlen)]
  refine ⟨packPartial_length s 0, fun j hj => ?_, ?_⟩
  · rw [packPartial_getD s 0 j (by omega), Nat.zero_add]
  · have habsent : s.getD (s.length - 1 + 1) 0#8 = 0#8 := List.getD_eq_default _ _ (by omega)
    rw [packPartial_getD s 0 _ (by omega), Nat.zero_add, habsent]
    simp

/-- A zero as the eighth septet adds nothing to the seventh octet (40 R85). -/
theorem packBlock8_zero (a b c d e f g : Byte) :
    packBlock8 a b c d e f g 0#8 = packPartial 0 [a, b, c, d, e, f, g] := by
  simp [packBlock8_eq, packPartial_cons, packPartial_one]

/-- 40 R85, by blocks, down to the last seven septets. -/
theorem pack_append_zero (s : List Byte) (hmod : s.length % 8 = 7) : pack (s ++ [0#8]) = pack s := by
  induction s using block8_induct with
  | short s hlen =>
    have hseven : s.length = 7 := by omega
    obtain ⟨a, b, c, d, e, f, g, rfl⟩ : ∃ a b c d e f g, s = [a, b, c, d, e, f, g] := by
      rcases s with _ | ⟨a, _ | ⟨b, _ | ⟨c, _ | ⟨d, _ | ⟨e, _ | ⟨f, _ | ⟨g, _ | ⟨h, r⟩⟩⟩⟩⟩⟩⟩⟩ <;>
        simp at hseven ⊢
    have hfull : pack ([a, b, c, d, e, f, g] ++ [0#8]) = packBlock8 a b c d e f g 0#8 := pack_cons8 a b c d e f g 0#8 []
    rw [hfull, packBlock8_zero, pack_short _ hlen]
  | step a b c d e f g h rest ih =>
    have hrest : rest.length % 8 = 7 := by
      simp only [List.length_cons] at hmod
      omega
    simp only [List.cons_append, pack_cons8, ih hrest]

/-- Settles O25: it holds of all bytes, septets or not. -/
theorem trailingZeroPacksAlike : Obligations.TrailingZeroPacksAlike := fun s _ => pack_append_zero s

/-! ### SP over whole sequences -/

theorem closedOutput_append (xs ys : List Byte) :
    closedOutput (xs ++ ys) = xs.map Token.ofData ++ closedOutput ys := by
  simp [closedOutput]

/-- From inside a block, with septet `j` in `prev`: the septets that follow in that block, then END, emit the octets
of the partial block from `j` on. -/
theorem spFinish_spData_partial (xs : List Byte) : ∀ {j : Nat} {p : Packer}, p.phase.toNat = j + 1 →
    j + xs.length < 7 →
    spFinish (spData p xs) = ⟨0#3, 0#8, p.err, p.pend ++ closedOutput (packPartial j (p.prev :: xs))⟩ := by
  induction xs with
  | nil =>
    intro j p hphase _
    have hne : p.phase ≠ 0#3 := fun h => by simp [h] at hphase
    simp [spData, spFinish_eq, hne, hphase, packPartial_one, closedOutput]
  | cons x xs ih =>
    intro j p hphase hlen
    rw [List.length_cons] at hlen
    have hne : p.phase ≠ 0#3 := fun h => by simp [h] at hphase
    have hlast : p.phase ≠ 7#3 := fun h => by simp [h] at hphase; omega
    have hsucc : (p.phase + 1#3).toNat = j + 1 + 1 := by
      rw [BitVec.toNat_add, hphase]
      exact Nat.mod_eq_of_lt (by simp; omega)
    have hfeed : spData p (x :: xs) = spData (spConsume x p) xs := rfl
    have hshift : 8 - (j + 1) = 7 - j := by omega
    rw [hfeed, spConsume_of_phase_ne_zero hne, if_neg hlast, if_neg hlast, ih hsucc (by omega), packPartial_cons,
      hphase, hshift]
    simp [closedOutput]

/-- A sequence of data bytes and END, from phase 0: SP emits the octets of `pack` and END, and is at phase 0 again
(40 R89, R91). -/
theorem spFinish_spData (xs : List Byte) : ∀ (er : Bool) (q : List Token),
    spFinish (spData ⟨0#3, 0#8, er, q⟩ xs) = ⟨0#3, 0#8, er, q ++ closedOutput (pack xs)⟩ := by
  induction xs using block8_induct with
  | short xs hlen =>
    intro er q
    rw [pack_short xs hlen]
    cases xs with
    | nil => rfl
    | cons x xs =>
      have hopen : spData ⟨0#3, 0#8, er, q⟩ (x :: xs) = spData ⟨1#3, x, er, q⟩ xs := rfl
      rw [List.length_cons] at hlen
      rw [hopen, spFinish_spData_partial (j := 0) xs rfl (by omega)]
  | step a b c d e f g h rest ih =>
    intro er q
    have hsplit : a :: b :: c :: d :: e :: f :: g :: h :: rest = [a, b, c, d, e, f, g, h] ++ rest := rfl
    rw [pack_cons8, closedOutput_append, hsplit, spData_append, spData_block, ih, List.append_assoc]

/-- The tokens of `PACK xs`, fed to SP at phase 0. -/
theorem spFeed_packProgram (policy : RangePolicy) (xs : List Byte) (hxs : policy = .fault → allSeptets xs = true)
    (er : Bool) (q : List Token) :
    spFeed policy ⟨0#3, 0#8, er, q⟩ (tokensOf (packProgram xs))
      = ⟨0#3, 0#8, er, q ++ closedOutput (pack (xs.map (underPolicy policy)))⟩ := by
  rw [packProgram, tokensOf_append, spFeed_append, spFeed_data policy xs hxs]
  exact spFinish_spData _ er q

/-- The tokens of whole sequences one after the other, fed to SP at phase 0. -/
theorem spFeed_packPrograms (policy : RangePolicy) (er : Bool) (xss : List (List Byte)) : ∀ (q : List Token),
    (policy = .fault → ∀ xs ∈ xss, allSeptets xs = true) →
    spFeed policy ⟨0#3, 0#8, er, q⟩ (tokensOf (xss.flatMap packProgram))
      = ⟨0#3, 0#8, er, q ++ xss.flatMap fun xs => closedOutput (pack (xs.map (underPolicy policy)))⟩ := by
  induction xss with
  | nil => intro q _; simp [tokensOf, spFeed]
  | cons xs xss ih =>
    intro q h
    have hhead : policy = .fault → allSeptets xs = true := fun hp => h hp xs List.mem_cons_self
    have htail : policy = .fault → ∀ ys ∈ xss, allSeptets ys = true := fun hp ys hys =>
      h hp ys (List.mem_cons_of_mem _ hys)
    rw [List.flatMap_cons, tokensOf_append, spFeed_append, spFeed_packProgram policy xs hhead, ih _ htail,
      List.flatMap_cons, List.append_assoc]

/-- No token clears `err` (10 R23). -/
theorem spEffect_keeps_err {policy : RangePolicy} {p : Packer} (i : Instr) (h : p.err = true) :
    (spEffect policy i p).err = true := by
  rcases spEffect_err policy i p with hsame | ⟨⟨d, rfl⟩, rfl⟩
  · rw [hsame, h]
  · rfl

theorem spFeed_keeps_err {policy : RangePolicy} (ts : List Token) :
    ∀ {p : Packer}, p.err = true → (spFeed policy p ts).err = true := by
  induction ts with
  | nil => intro p h; exact h
  | cons t ts ih => intro p h; exact ih (spEffect_keeps_err _ h)

/-- Settles O50: the tokens SP accepted are fed to its reset state. All the sequences together leave `err` clear, so the
accepted ones do; hence the run ended because SP accepted every token, and it emitted the results of all of them. -/
theorem packerComputesPack : Obligations.PackerComputesPack := by
  intro k s t xss hunwired _ hreset hnoReset hseptets hstream hrun hended
  obtain ⟨acc, hleft, hhist, -⟩ := sp_trace hnoReset hunwired hrun
  have hstart : spHistory s = ⟨0#3, 0#8, false, s.spPort.output⟩ := by
    simp [spHistory, emittedAll, portOf, pendOf, hreset, Packer.afterReset]
  have hall := spFeed_packPrograms s.config.rangePolicy false xss s.spPort.output hseptets
  rw [← hstart, ← hstream, hleft] at hall
  have hclear : t.sp.err = false := by
    by_contra hset
    have hset' : (spHistory t).err = true := Bool.eq_true_of_not_eq_false hset
    have hstuck := spFeed_keeps_err (policy := s.config.rangePolicy) (streamLeft t .sp) hset'
    rw [hhist, ← spFeed_append, hall] at hstuck
    cases hstuck
  obtain ⟨hpend, hleft'⟩ : t.sp.pend = [] ∧ streamLeft t .sp = [] := by
    simpa [ended, pendOf, errOf, hclear] using hended
  rw [hleft', List.append_nil, ← hhist] at hall
  simp only [spHistory, emittedAll, portOf, pendOf, hpend, List.append_nil, Packer.mk.injEq] at hall
  obtain ⟨hphase, hprev, -, hout⟩ := hall
  refine ⟨?_, hout⟩
  rw [Packer.afterReset, ← hphase, ← hprev, ← hclear, ← hpend]

end Sys2Proof.Machine
end

section
/-! PROOFS. SU's tokens and the unpacked blocks (41 R100 to R112): the result of each token, `unpack` by blocks, and SU
over whole sequences. -/

namespace Sys2Proof.Machine

/-! ### An octet and END in SU's registers -/

theorem suConsume_of_phase_eq_zero {p : Unpacker} (h : p.phase = 0#3) (y : Byte) :
    suConsume y p = ⟨1#3, y, p.pend ++ [Token.ofData (y &&& 127#8)]⟩ := by
  simp only [suConsume, h, if_true, suSetBlock, suEmit, firstSeptet_eq]

theorem suConsume_of_phase_inner {p : Unpacker} (h0 : p.phase ≠ 0#3) (h7 : p.phase ≠ 7#3) (y : Byte) :
    suConsume y p =
      ⟨p.phase + 1#3, y,
        p.pend ++ [Token.ofData (p.prev >>> (8 - p.phase.toNat) ||| (y <<< p.phase.toNat &&& 127#8))]⟩ := by
  simp only [suConsume, h0, h7, if_false, suSetBlock, suEmit, septetFormed_eq]

theorem suConsume_of_phase_eq_seven {p : Unpacker} (h : p.phase = 7#3) (y : Byte) :
    suConsume y p =
      ⟨1#3, y, p.pend ++ [Token.ofData (p.prev >>> 1), Token.ofData (y &&& 127#8)]⟩ := by
  simp [suConsume, h, suSetBlock, suEmit, firstSeptet_eq, heldSeptet_eq]

theorem suFinish_of_phase_ne_seven {p : Unpacker} (h : p.phase ≠ 7#3) :
    suFinish p = ⟨0#3, 0#8, p.pend ++ [Token.fin]⟩ := by
  simp only [suFinish, h, false_and, if_false, suSetBlock, suEmit]

theorem suFinish_of_phase_eq_seven {p : Unpacker} (h : p.phase = 7#3) :
    suFinish p =
      ⟨0#3, 0#8,
        p.pend ++ if p.prev >>> 1 = 0#8 then [Token.fin] else [Token.ofData (p.prev >>> 1), Token.fin]⟩ := by
  simp only [suFinish, h, true_and, suSetBlock, suEmit, heldSeptet_eq]
  by_cases hz : p.prev >>> 1 = 0#8
  · simp [hz]
  · simp [hz]

theorem suConsume_pend_length {p : Unpacker} (hp : p.pend = []) (y : Byte) :
    (suConsume y p).pend.length = if p.phase = 7#3 then 2 else 1 := by
  by_cases h7 : p.phase = 7#3
  · simp [suConsume_of_phase_eq_seven h7, hp, h7]
  · by_cases h0 : p.phase = 0#3
    · simp [suConsume_of_phase_eq_zero h0, hp, h0]
    · simp [suConsume_of_phase_inner h0 h7, hp, h7]

theorem suFinish_pend_length {p : Unpacker} (hp : p.pend = []) :
    (suFinish p).pend.length = if p.phase = 7#3 ∧ p.prev >>> 1 ≠ 0#8 then 2 else 1 := by
  by_cases h7 : p.phase = 7#3
  · by_cases hz : p.prev >>> 1 = 0#8
    · simp [suFinish_of_phase_eq_seven h7, hp, hz]
    · simp [suFinish_of_phase_eq_seven h7, hp, h7, hz]
  · simp [suFinish_of_phase_ne_seven h7, hp, h7]

/-! ### The result of each token SU accepts -/

theorem exec_put8_accepts {s : State} (h : canAccept s .su = true) (y : Byte) :
    exec (.put8 y) s = .next { s with su := suConsume y s.su } :=
  presentSu_accepts h

theorem exec_end8_accepts {s : State} (h : canAccept s .su = true) (x : Byte) :
    exec (.end8 x) s = .next { s with su := suFinish s.su } :=
  presentSu_accepts h

/-- Settles O16: the septet is appended to `pend`, which is empty where SU accepts. -/
theorem put8OpensSequence : Obligations.Put8OpensSequence := by
  intro y s hcan hphase
  have hpend : s.su.pend = [] := pendOf_of_canAccept hcan
  rw [exec_put8_accepts hcan, suConsume_of_phase_eq_zero hphase, hpend]
  rfl

/-- Settles O17: the septet is appended to `pend`, which is empty where SU accepts. -/
theorem put8CompletesSeptet : Obligations.Put8CompletesSeptet := by
  intro y s hcan h0 h7
  have hpend : s.su.pend = [] := pendOf_of_canAccept hcan
  rw [exec_put8_accepts hcan, suConsume_of_phase_inner h0 h7, hpend]
  rfl

/-- Settles O18: both septets are appended to `pend`, which is empty where SU accepts. -/
theorem put8ReleasesHeldSeptet : Obligations.Put8ReleasesHeldSeptet := by
  intro y s hcan hphase
  have hpend : s.su.pend = [] := pendOf_of_canAccept hcan
  rw [exec_put8_accepts hcan, suConsume_of_phase_eq_seven hphase, hpend]
  rfl

/-- Settles O19: at these phases END8 reads nothing of `prev`. -/
theorem end8DropsPartialBits : Obligations.End8DropsPartialBits := by
  intro x s hcan hphase
  have hpend : s.su.pend = [] := pendOf_of_canAccept hcan
  rw [exec_end8_accepts hcan, suFinish_of_phase_ne_seven hphase, hpend]
  rfl

/-- Settles O20: what END8 emits is appended to `pend`, which is empty where SU accepts. -/
theorem end8SuppressesZeroSeptet : Obligations.End8SuppressesZeroSeptet := by
  intro x s hcan hphase
  have hpend : s.su.pend = [] := pendOf_of_canAccept hcan
  rw [exec_end8_accepts hcan, suFinish_of_phase_eq_seven hphase, hpend]
  rfl

/-! ### `unpack` by blocks -/

theorem unpackFinal7_eq (a b c d e f g : Byte) :
    unpackFinal7 a b c d e f g = unpackFirst7 a b c d e f g ++ if g >>> 1 = 0#8 then [] else [g >>> 1] := by
  rw [unpackFinal7, unpackEighth_eq]

/-- Settles O34: the two equations of `unpack` for a block of seven octets, with and without an octet after it. -/
theorem zeroSuppressionAtTheEndOnly : Obligations.ZeroSuppressionAtTheEndOnly := by
  intro a b c d e f g
  refine ⟨fun y more => ?_, ?_⟩
  · rw [unpack_cons8, unpackBlock7_eq]
  · rw [unpack_final, unpackFinal7_eq]

/-- Septet `i` of those after the first of a partial group, `x` being the octet at position `j - 1`: from its own octet
and the one before it (41 R102). -/
theorem unpackPartialFrom_getD (r : List Byte) : ∀ (j i : Nat) (x : Byte), i < r.length →
    (unpackPartialFrom j x r).getD i 0#8
      = (x :: r).getD i 0#8 >>> (8 - (j + i)) ||| (r.getD i 0#8 <<< (j + i) &&& 127#8) := by
  induction r with
  | nil => intro j i x hi; cases hi
  | cons y r ih =>
    intro j i x hi
    rw [unpackPartialFrom_cons]
    cases i with
    | zero => simp
    | succ i =>
      have hpos : j + 1 + i = j + (i + 1) := by omega
      have hnext := ih (j + 1) i y (Nat.lt_of_succ_lt_succ hi)
      rw [hpos] at hnext
      exact hnext

/-- Settles O32: a sequence of 1 to 6 octets is one partial group, of its first septet and those after it. -/
theorem partialGroupSeptets : Obligations.PartialGroupSeptets := by
  intro o hpos hlen
  rw [unpack_short o (Nat.lt_succ_of_le hlen)]
  refine ⟨unpackPartial_length o, ?_⟩
  cases o with
  | nil => cases hpos
  | cons y r =>
    rw [unpackPartial_cons]
    refine ⟨rfl, fun j hj hjlen => ?_⟩
    obtain ⟨i, rfl⟩ := Nat.exists_eq_add_of_le' hj
    have hsept := unpackPartialFrom_getD r 1 i y (Nat.lt_of_succ_lt_succ hjlen)
    rw [Nat.add_comm 1 i] at hsept
    exact hsept

/-! ### `unpack` gives septets -/

theorem allSeptets_cons (x : Byte) (xs : List Byte) :
    allSeptets (x :: xs) = (isSeptet x && allSeptets xs) := rfl

theorem allSeptets_append (xs ys : List Byte) :
    allSeptets (xs ++ ys) = (allSeptets xs && allSeptets ys) := List.all_append

/-- The septets of a block are those SU forms of its octets (41 R100, R106, R107). -/
theorem unpackFirst7_eq_septetFormed (a b c d e f g : Byte) :
    unpackFirst7 a b c d e f g =
      [firstSeptet a, septetFormed 1 a b, septetFormed 2 b c, septetFormed 3 c d, septetFormed 4 d e,
        septetFormed 5 e f, septetFormed 6 f g] := rfl

theorem allSeptets_unpackFirst7 (a b c d e f g : Byte) : allSeptets (unpackFirst7 a b c d e f g) = true := by
  simp [unpackFirst7_eq_septetFormed, allSeptets, isSeptet_firstSeptet, isSeptet_septetFormed]

theorem isSeptet_unpackEighth (g : Byte) : isSeptet (unpackEighth g) = true := isSeptet_heldSeptet g

theorem allSeptets_unpackPartialFrom (r : List Byte) : ∀ (j : Nat) (x : Byte), j + r.length ≤ 8 →
    allSeptets (unpackPartialFrom j x r) = true := by
  induction r with
  | nil => intro j x _; rfl
  | cons y r ih =>
    intro j x hlen
    rw [List.length_cons] at hlen
    have hhead : isSeptet (septetFormed j x y) = true := isSeptet_septetFormed (by omega) x y
    have htail := ih (j + 1) y (by omega)
    rw [septetFormed_eq] at hhead
    rw [unpackPartialFrom_cons, allSeptets_cons, hhead, htail]
    rfl

theorem allSeptets_unpackPartial {ys : List Byte} (h : ys.length < 7) : allSeptets (unpackPartial ys) = true := by
  cases ys with
  | nil => rfl
  | cons y r =>
    have hhead : isSeptet (y &&& 127#8) = true := firstSeptet_eq y ▸ isSeptet_firstSeptet y
    rw [List.length_cons] at h
    rw [unpackPartial_cons, allSeptets_cons, hhead, allSeptets_unpackPartialFrom r 1 y (by omega)]
    rfl

theorem allSeptets_unpackBlock7 (a b c d e f g : Byte) : allSeptets (unpackBlock7 a b c d e f g) = true := by
  rw [unpackBlock7, allSeptets_append, allSeptets_unpackFirst7, allSeptets_cons, isSeptet_unpackEighth]
  rfl

theorem allSeptets_unpackFinal7 (a b c d e f g : Byte) : allSeptets (unpackFinal7 a b c d e f g) = true := by
  rw [unpackFinal7, allSeptets_append, allSeptets_unpackFirst7]
  split_ifs
  · rfl
  · rw [allSeptets_cons, isSeptet_unpackEighth]
    rfl

/-- Settles O29: by blocks, each of which gives septets. -/
theorem unpackGivesSeptets : Obligations.UnpackGivesSeptets := by
  intro o
  induction o using block7_induct with
  | short o hlen =>
    rw [unpack_short o hlen]
    exact allSeptets_unpackPartial hlen
  | final a b c d e f g =>
    rw [unpack_final]
    exact allSeptets_unpackFinal7 a b c d e f g
  | step a b c d e f g h rest ih =>
    rw [unpack_cons8, allSeptets_append, allSeptets_unpackBlock7, ih]
    rfl

/-! ### SU over whole sequences -/

/-- From inside a block, with octet `j - 1` in `prev`: the octets that follow in that block, then END, emit the septets
of the partial group from `j` on. -/
theorem suFinish_suData_partial (ys : List Byte) : ∀ {j : Nat} {p : Unpacker}, p.phase.toNat = j → 1 ≤ j →
    j + ys.length < 7 →
    suFinish (suData p ys) = ⟨0#3, 0#8, p.pend ++ closedOutput (unpackPartialFrom j p.prev ys)⟩ := by
  induction ys with
  | nil =>
    intro j p hphase _ hlen
    rw [List.length_nil] at hlen
    have h7 : p.phase ≠ 7#3 := fun h => by simp [h] at hphase; omega
    exact suFinish_of_phase_ne_seven h7
  | cons y ys ih =>
    intro j p hphase hj hlen
    rw [List.length_cons] at hlen
    have h0 : p.phase ≠ 0#3 := fun h => by simp [h] at hphase; omega
    have h7 : p.phase ≠ 7#3 := fun h => by simp [h] at hphase; omega
    have hsucc : (p.phase + 1#3).toNat = j + 1 := by
      rw [BitVec.toNat_add, hphase]
      exact Nat.mod_eq_of_lt (by simp; omega)
    have hfeed : suData p (y :: ys) = suData (suConsume y p) ys := rfl
    rw [hfeed, suConsume_of_phase_inner h0 h7, ih hsucc (by omega) (by omega), unpackPartialFrom_cons, hphase]
    simp [closedOutput]

/-- A block held back at phase 7 and an octet after it: as from phase 0 with the held septet already emitted. -/
theorem suData_after_block (g y : Byte) (ys : List Byte) (q : List Token) :
    suData ⟨7#3, g, q⟩ (y :: ys) = suData ⟨0#3, 0#8, q ++ [Token.ofData (g >>> 1)]⟩ (y :: ys) :=
  congrArg (suData · ys) (suConsume_after_block g y q)

/-- A block that ends the sequence: the held septet if it is not zero, then END (41 R104, R111). -/
theorem suFinish_suData_final (a b c d e f g : Byte) (q : List Token) :
    suFinish (suData ⟨0#3, 0#8, q⟩ [a, b, c, d, e, f, g])
      = ⟨0#3, 0#8, q ++ closedOutput (unpackFinal7 a b c d e f g)⟩ := by
  rw [suData_block, suFinish_of_phase_eq_seven rfl, unpackFinal7_eq, closedOutput_append, List.append_assoc]
  split_ifs <;> rfl

/-- A sequence of octets and END, from phase 0: SU emits the septets of `unpack` and END, and is at phase 0 again
(41 R112). -/
theorem suFinish_suData (ys : List Byte) : ∀ q : List Token,
    suFinish (suData ⟨0#3, 0#8, q⟩ ys) = ⟨0#3, 0#8, q ++ closedOutput (unpack ys)⟩ := by
  induction ys using block7_induct with
  | short ys hlen =>
    intro q
    rw [unpack_short ys hlen]
    cases ys with
    | nil => rfl
    | cons y ys =>
      have hopen : suData ⟨0#3, 0#8, q⟩ (y :: ys) = suData (suConsume y ⟨0#3, 0#8, q⟩) ys := rfl
      rw [List.length_cons] at hlen
      rw [hopen, suConsume_of_phase_eq_zero rfl, suFinish_suData_partial (j := 1) ys rfl le_rfl (by omega),
        unpackPartial_cons]
      simp [closedOutput]
  | final a b c d e f g =>
    intro q
    rw [unpack_final, suFinish_suData_final]
  | step a b c d e f g h rest ih =>
    intro q
    have hsplit : a :: b :: c :: d :: e :: f :: g :: h :: rest = [a, b, c, d, e, f, g] ++ h :: rest := rfl
    rw [unpack_cons8, unpackBlock7_eq, closedOutput_append, hsplit, suData_append, suData_block, suData_after_block, ih]
    simp

/-- The tokens of `UNPACK ys`, fed to SU at phase 0. -/
theorem suFeed_unpackProgram (ys : List Byte) (q : List Token) :
    suFeed ⟨0#3, 0#8, q⟩ (tokensOf (unpackProgram ys)) = ⟨0#3, 0#8, q ++ closedOutput (unpack ys)⟩ := by
  rw [unpackProgram, tokensOf_append, suFeed_append, suFeed_data]
  exact suFinish_suData ys q

/-- The tokens of whole sequences one after the other, fed to SU at phase 0. -/
theorem suFeed_unpackPrograms (yss : List (List Byte)) : ∀ q : List Token,
    suFeed ⟨0#3, 0#8, q⟩ (tokensOf (yss.flatMap unpackProgram))
      = ⟨0#3, 0#8, q ++ yss.flatMap fun ys => closedOutput (unpack ys)⟩ := by
  induction yss with
  | nil => intro q; simp [tokensOf, suFeed]
  | cons ys yss ih =>
    intro q
    rw [List.flatMap_cons, tokensOf_append, suFeed_append, suFeed_unpackProgram, ih, List.flatMap_cons,
      List.append_assoc]

/-- A run of SU that has ended has accepted every token: they are fed to its registers, what it had emitted before
standing in `pend`, and all it has emitted is delivered (70 R177). -/
theorem su_ended_history {k : Nat} {s t : State} (hn : noReset .su s = true) (hf : s.config.spToSu = false)
    (h : core.run k s = .next t) (hended : ended t .su = true) :
    t.su.pend = []
      ∧ ({ t.su with pend := t.suPort.output } : Unpacker) = suFeed (suHistory s) (streamLeft s .su) := by
  obtain ⟨acc, hleft, hhist⟩ := su_trace hn hf h
  obtain ⟨hpend, hleft'⟩ : t.su.pend = [] ∧ streamLeft t .su = [] := by
    simpa [ended, pendOf, errOf] using hended
  refine ⟨hpend, ?_⟩
  rw [hleft, hleft', List.append_nil, ← hhist]
  simp [suHistory, emittedAll, portOf, pendOf, hpend]

/-- Settles O51: the whole stream is fed to SU's reset state, and gives the results of all the sequences; and how many
tokens each SU token leaves in `pend`, which is empty where SU accepts. -/
theorem unpackerComputesUnpack : Obligations.UnpackerComputesUnpack := by
  refine ⟨?_, fun s hcan => ?_⟩
  · intro k s t yss hunwired _ hreset hnoReset hstream hrun hended
    obtain ⟨hpend, hhist⟩ := su_ended_history hnoReset hunwired hrun hended
    have hstart : suHistory s = ⟨0#3, 0#8, s.suPort.output⟩ := by
      simp [suHistory, emittedAll, portOf, pendOf, hreset, Unpacker.afterReset]
    rw [hstart, hstream, suFeed_unpackPrograms, Unpacker.mk.injEq] at hhist
    obtain ⟨hphase, hprev, hout⟩ := hhist
    refine ⟨?_, hout⟩
    rw [Unpacker.afterReset, ← hphase, ← hprev, ← hpend]
  · have hpend : s.su.pend = [] := pendOf_of_canAccept hcan
    refine ⟨fun y => ⟨_, exec_put8_accepts hcan y, suConsume_pend_length hpend y⟩,
      fun x => ⟨_, exec_end8_accepts hcan x, ?_⟩⟩
    rw [suFinish_pend_length hpend]
    split_ifs with hheld
    · obtain ⟨h7, -⟩ := hheld
      exact ⟨fun hne => absurd h7 hne, .inr rfl⟩
    · exact ⟨fun _ => rfl, .inl rfl⟩

end Sys2Proof.Machine
end

section
/-! PROOFS. The laws of the codec (42 R120 to R133): what a group of septets or octets keeps when it goes there
and back, lengths, the two compositions of `pack` and `unpack`, and the disjoint parts of the formulas. -/

namespace Sys2Proof.Machine

/-! ### There and back within a block

A block of 8 septets is a partial block with one more octet, 0, and a block of 7 octets is a partial group with one more
octet, 0. So one induction over the positions in a block serves the full blocks and the partial ones. -/

theorem packPartial_eight (a b c d e f g h : Byte) :
    packPartial 0 [a, b, c, d, e, f, g, h] = packBlock8 a b c d e f g h ++ [h >>> 7] := by
  simp [packBlock8_eq, packPartial_cons, packPartial_one]

@[simp] theorem unpackPartialFrom_nil (j : Nat) (x : Byte) : unpackPartialFrom j x [] = [] := rfl

theorem unpackPartial_eight (a b c d e f g : Byte) :
    unpackPartial [a, b, c, d, e, f, g, 0#8] = unpackBlock7 a b c d e f g := by
  simp [unpackBlock7_eq, unpackFirst7_eq, unpackPartial_cons, unpackPartialFrom_cons]

/-- At the first position nothing is left of an octet before. -/
theorem unpackPartialFrom_zero (o : Byte) (r : List Byte) : unpackPartialFrom 0 o r = unpackPartial r := by
  cases r with
  | nil => rfl
  | cons y r =>
    have hnone : o >>> 8 = 0#8 := BitVec.ushiftRight_eq_zero (Nat.le_refl 8)
    simp [unpackPartialFrom_cons, unpackPartial_cons, hnone]

theorem ushiftRight_seven_of_isSeptet {x : Byte} (h : isSeptet x = true) : x >>> 7 = 0#8 := by
  apply BitVec.eq_of_getLsbD_eq
  intro i _
  simp [getLsbD_of_isSeptet h (Nat.le_add_right 7 i)]

/-- The octet at position `j` ends in the low `j + 1` bits of the septet after `w` (20 R43). -/
theorem octet_top_of_isSeptet {w : Byte} (hw : isSeptet w = true) (x : Byte) {j : Nat} (hj : j ≤ 7) :
    (w >>> j ||| x <<< (7 - j)) >>> (7 - j) = x <<< (7 - j) >>> (7 - j) := by
  have hnone : w >>> j >>> (7 - j) = 0#8 := by
    rw [← BitVec.shiftRight_add, Nat.add_sub_cancel' hj, ushiftRight_seven_of_isSeptet hw]
  rw [BitVec.ushiftRight_or_distrib, hnone, BitVec.zero_or]

/-- The septet `x` at position `j` is its low `j` bits, from the octet before, and the bits of its own octet, whatever
follows it there (20 R43). -/
theorem septet_of_octets {x : Byte} (hx : isSeptet x = true) (y : Byte) {j : Nat} (hj : j ≤ 7) :
    x <<< (8 - j) >>> (8 - j) ||| ((x >>> j ||| y <<< (7 - j)) <<< j &&& 127#8) = x := by
  apply BitVec.eq_of_getLsbD_eq
  intro i hi
  simp only [BitVec.getLsbD_or, BitVec.getLsbD_and, BitVec.getLsbD_ushiftRight, BitVec.getLsbD_shiftLeft, getLsbD_127]
  rcases Nat.lt_or_ge i j with hlow | hhigh
  · have hin : 8 - j + i < 8 := by omega
    simp [hlow, hin]
  · have hout : ¬ 8 - j + i < 8 := by omega
    rcases Nat.lt_or_ge i 7 with h7 | h7
    · have hown : i - j < 7 - j := by omega
      simp [hout, hi, h7, hown, Nat.not_lt.2 hhigh, Nat.add_sub_cancel' hhigh]
    · simp [hout, Nat.not_lt.2 h7, getLsbD_of_isSeptet hx h7]

/-- Octet `y` at position `j`, between the octets `w` and `z`: its low bits are the top of septet `j`, the others the
bottom of septet `j + 1` (20 R43). -/
theorem octet_of_septets (w y z : Byte) {j : Nat} (hj : j ≤ 7) :
    (w >>> (8 - j) ||| (y <<< j &&& 127#8)) >>> j ||| (y >>> (7 - j) ||| (z <<< (j + 1) &&& 127#8)) <<< (7 - j)
      = y := by
  apply BitVec.eq_of_getLsbD_eq
  intro i hi
  have hwbit : w.getLsbD (8 - j + (j + i)) = false := BitVec.getLsbD_of_ge _ _ (by omega)
  simp only [BitVec.getLsbD_or, BitVec.getLsbD_and, BitVec.getLsbD_ushiftRight, BitVec.getLsbD_shiftLeft,
    getLsbD_127, hwbit]
  rcases Nat.lt_or_ge i (7 - j) with hlow | hhigh
  · have hin : j + i < 7 := by omega
    simp [hlow, hin, Nat.lt_succ_of_lt hin]
  · have hout : ¬ j + i < 7 := by omega
    have hown : i - (7 - j) < j + 1 := by omega
    simp [hout, hi, hown, Nat.not_lt.2 hhigh, Nat.add_sub_cancel' hhigh]

/-- The last septet of a partial group gives its octet back unless the group dropped bits of it that are not 0. -/
theorem lastOctet_of_septet (w y : Byte) {j : Nat} (hj : j ≤ 7) :
    (w >>> (8 - j) ||| (y <<< j &&& 127#8)) >>> j = y ↔ y >>> (7 - j) = 0#8 := by
  have hseptet := isSeptet_septetFormed hj w y
  have hjoin := octet_of_septets w y 0#8 hj
  rw [septetFormed_eq] at hseptet
  rw [BitVec.zero_shiftLeft, BitVec.zero_and, BitVec.or_zero] at hjoin
  constructor
  · intro hkept
    rw [← hkept, ← BitVec.shiftRight_add, Nat.add_sub_cancel' hj, ushiftRight_seven_of_isSeptet hseptet]
  · intro hnone
    rwa [hnone, BitVec.zero_shiftLeft, BitVec.or_zero] at hjoin

/-- The septets of a partial block from position `j` on come back from its octets, given the octet before, which
holds the low bits of the first. -/
theorem unpackPartialFrom_packPartial (r : List Byte) : ∀ {j : Nat} {o x : Byte}, allSeptets (x :: r) = true →
    j + r.length ≤ 7 → o >>> (8 - j) = x <<< (8 - j) >>> (8 - j) →
    unpackPartialFrom j o (packPartial j (x :: r)) = x :: r := by
  induction r with
  | nil =>
    intro j o x hs hj ho
    have hx : isSeptet x = true := List.all_eq_true.1 hs x (List.mem_cons_self ..)
    have hlast := septet_of_octets hx 0#8 (j := j) hj
    rw [BitVec.zero_shiftLeft, BitVec.or_zero] at hlast
    rw [packPartial_one, unpackPartialFrom_cons, ho, hlast, unpackPartialFrom_nil]
  | cons y r ih =>
    intro j o x hs hj ho
    rw [List.length_cons] at hj
    rw [allSeptets_cons, Bool.and_eq_true] at hs
    obtain ⟨hx, hrest⟩ := hs
    have hnext := octet_top_of_isSeptet hx y (j := j) (by omega)
    have hpos : 8 - (j + 1) = 7 - j := Nat.add_sub_add_right 7 1 j
    rw [packPartial_cons, unpackPartialFrom_cons, ho, septet_of_octets hx y (by omega),
      ih hrest (by omega) (by rwa [hpos])]

/-- Up to 8 septets come back from their octets (42 R122, R131). -/
theorem unpackPartial_packPartial {s : List Byte} (hs : allSeptets s = true) (hlen : s.length ≤ 8) :
    unpackPartial (packPartial 0 s) = s := by
  cases s with
  | nil => rfl
  | cons x r =>
    have hnone : x <<< 8 >>> 8 = 0#8 := BitVec.ushiftRight_eq_zero (Nat.le_refl 8)
    rw [← unpackPartialFrom_zero 0#8]
    refine unpackPartialFrom_packPartial r hs (by rw [List.length_cons] at hlen; omega) ?_
    rw [Nat.sub_zero, hnone, BitVec.zero_ushiftRight]

/-- The octets of a partial group from position `j` on come back from its septets unless bits of the last octet that are
not 0 were dropped. -/
theorem packPartial_unpackPartialFrom (r : List Byte) : ∀ {j : Nat} {w y : Byte}, j + r.length ≤ 7 →
    (packPartial j (unpackPartialFrom j w (y :: r)) = y :: r ↔
      (y :: r).getLastD 0#8 >>> (7 - (j + r.length)) = 0#8) := by
  induction r with
  | nil =>
    intro j w y hj
    rw [unpackPartialFrom_cons, unpackPartialFrom_nil, packPartial_one, List.cons_eq_cons]
    simpa using lastOctet_of_septet w y hj
  | cons z r ih =>
    intro j w y hj
    rw [List.length_cons] at hj ⊢
    have hnext := ih (j := j + 1) (w := y) (y := z) (by omega)
    have hpos : 8 - (j + 1) = 7 - j := Nat.add_sub_add_right 7 1 j
    rw [unpackPartialFrom_cons, hpos, Nat.add_right_comm, List.getLastD_cons] at hnext
    rw [unpackPartialFrom_cons, unpackPartialFrom_cons, packPartial_cons, hpos, octet_of_septets w y z (by omega),
      List.cons_inj_right, hnext, List.getLastD_cons, List.getLastD_cons, Nat.add_right_comm, Nat.add_assoc]

/-- Up to 8 octets come back from their septets unless bits of the last octet that are not 0 were dropped (42 R131,
R133). -/
theorem packPartial_unpackPartial_iff {o : List Byte} (hpos : o ≠ []) (hlen : o.length ≤ 8) :
    packPartial 0 (unpackPartial o) = o ↔ o.getLastD 0#8 >>> (8 - o.length) = 0#8 := by
  cases o with
  | nil => contradiction
  | cons y r =>
    rw [List.length_cons] at hlen ⊢
    rw [← unpackPartialFrom_zero 0#8, packPartial_unpackPartialFrom r (by omega), Nat.zero_add,
      Nat.add_sub_add_right 7 1]

/-! ### Full blocks -/

/-- The octets of a full block, as a list of seven, and their septets (42 R131). -/
theorem unpackBlock7_packBlock8 {a b c d e f g h : Byte} (hs : allSeptets [a, b, c, d, e, f, g, h] = true) :
    ∃ p q r s t u v, packBlock8 a b c d e f g h = [p, q, r, s, t, u, v] ∧
      unpackBlock7 p q r s t u v = [a, b, c, d, e, f, g, h] := by
  have hh : isSeptet h = true := List.all_eq_true.1 hs h (by simp)
  have hback := unpackPartial_packPartial hs (Nat.le_refl 8)
  rw [packPartial_eight, ushiftRight_seven_of_isSeptet hh] at hback
  refine ⟨_, _, _, _, _, _, _, rfl, ?_⟩
  rw [← unpackPartial_eight]
  exact hback

theorem packBlock8_unpackBlock7 (a b c d e f g : Byte) :
    ∃ p q r s t u v w, unpackBlock7 a b c d e f g = [p, q, r, s, t, u, v, w] ∧
      packBlock8 p q r s t u v w = [a, b, c, d, e, f, g] := by
  obtain ⟨p, q, r, s, t, u, v, w, hunpack⟩ :
      ∃ p q r s t u v w, unpackBlock7 a b c d e f g = [p, q, r, s, t, u, v, w] :=
    ⟨_, _, _, _, _, _, _, _, rfl⟩
  have hback := (packPartial_unpackPartial_iff (List.cons_ne_nil a [b, c, d, e, f, g, 0#8]) (Nat.le_refl 8)).2 rfl
  rw [unpackPartial_eight, hunpack, packPartial_eight] at hback
  obtain ⟨hpack, -⟩ := List.append_inj' (s₂ := [a, b, c, d, e, f, g]) (t₂ := [0#8]) hback rfl
  exact ⟨p, q, r, s, t, u, v, w, hunpack, hpack⟩

/-- Settles O22: 56 bits to 56 bits, both ways. -/
theorem fullBlocksLoseNothing : Obligations.FullBlocksLoseNothing := by
  refine ⟨fun a b c d e f g h hs => ?_, fun a b c d e f g => ?_⟩
  · obtain ⟨p, q, r, s, t, u, v, hpack, hback⟩ := unpackBlock7_packBlock8 hs
    rw [hpack]
    exact hback
  · obtain ⟨p, q, r, s, t, u, v, w, hunpack, hback⟩ := packBlock8_unpackBlock7 a b c d e f g
    rw [hunpack]
    exact hback

/-! ### Lengths -/

theorem packBlock8_length (a b c d e f g h : Byte) : (packBlock8 a b c d e f g h).length = 7 := rfl

theorem unpackFirst7_length (a b c d e f g : Byte) : (unpackFirst7 a b c d e f g).length = 7 := rfl

theorem unpackBlock7_length (a b c d e f g : Byte) : (unpackBlock7 a b c d e f g).length = 8 := rfl

theorem pack_length (s : List Byte) : (pack s).length = 7 * (s.length / 8) + s.length % 8 := by
  induction s using block8_induct with
  | short s hlen =>
    rw [pack_short s hlen, packPartial_length]
    omega
  | step a b c d e f g h rest ih =>
    simp only [pack_cons8, List.length_append, packBlock8_length, ih, List.length_cons]
    omega

/-- Settles O23: the ceiling of `7 n / 8` by arithmetic. -/
theorem packLength : Obligations.PackLength := by
  intro s
  have hlen := pack_length s
  exact ⟨hlen, by omega⟩

theorem unpackFinal7_length (a b c d e f g : Byte) :
    (unpackFinal7 a b c d e f g).length = if g >>> 1 = 0#8 then 7 else 8 := by
  rw [unpackFinal7_eq, List.length_append, unpackFirst7_length]
  split_ifs <;> rfl

theorem unpack_length_partial (o : List Byte) (hmod : o.length % 7 ≠ 0) :
    (unpack o).length = 8 * (o.length / 7) + o.length % 7 := by
  induction o using block7_induct with
  | short o hlen =>
    rw [unpack_short o hlen, unpackPartial_length]
    omega
  | final a b c d e f g => exact absurd (Nat.mod_self 7) hmod
  | step a b c d e f g h rest ih =>
    simp only [List.length_cons] at hmod ih
    simp only [unpack_cons8, List.length_append, unpackBlock7_length, ih (by omega), List.length_cons]
    omega

theorem unpack_length_full (o : List Byte) (hmod : o.length % 7 = 0) (hne : o.length ≠ 0) :
    (unpack o).length = if o.getLastD 0#8 >>> 1 = 0#8 then 8 * (o.length / 7) - 1 else 8 * (o.length / 7) := by
  induction o using block7_induct with
  | short o hlen => omega
  | final a b c d e f g => simp [unpack_final, unpackFinal7_length]
  | step a b c d e f g h rest ih =>
    simp only [List.length_cons, List.getLastD_cons] at hmod ih ⊢
    rw [unpack_cons8, List.length_append, unpackBlock7_length, ih (by omega) (by omega)]
    split_ifs <;> omega

/-- Settles O24: the two lengths of `unpack`, by whether a partial group ends the sequence. -/
theorem unpackLength : Obligations.UnpackLength := by
  intro o
  refine ⟨unpack_length_partial o, fun hzero => ?_, unpack_length_full o⟩
  rw [List.eq_nil_of_length_eq_zero hzero]
  rfl

/-! ### `unpack` after `pack` -/

/-- What unpacking loses of `s` when it was packed: a zero that ends a full block (42 R122). -/
def LosesLastZero (s : List Byte) : Prop := 8 ≤ s.length ∧ s.length % 8 = 0 ∧ s.getLast? = some 0#8

/-- The block that ends a sequence comes back without its eighth septet if that is 0 (41 R104). -/
theorem unpack_packBlock8 {a b c d e f g h : Byte} (hs : allSeptets [a, b, c, d, e, f, g, h] = true) :
    unpack (packBlock8 a b c d e f g h) = [a, b, c, d, e, f, g] ++ if h = 0#8 then [] else [h] := by
  obtain ⟨p, q, r, s, t, u, v, hpack, hback⟩ := unpackBlock7_packBlock8 hs
  obtain ⟨hfirst, heighth⟩ :=
    List.append_inj' (t₁ := [unpackEighth v]) (s₂ := [a, b, c, d, e, f, g]) (t₂ := [h]) hback rfl
  rw [hpack, unpack_final, unpackFinal7, hfirst, List.singleton_inj.1 heighth]

/-- A block with more octets after it comes back whole. -/
theorem unpack_packBlock8_append {a b c d e f g h : Byte} (hs : allSeptets [a, b, c, d, e, f, g, h] = true)
    {more : List Byte} (hmore : more ≠ []) :
    unpack (packBlock8 a b c d e f g h ++ more) = [a, b, c, d, e, f, g, h] ++ unpack more := by
  obtain ⟨p, q, r, s, t, u, v, hpack, hback⟩ := unpackBlock7_packBlock8 hs
  obtain ⟨y, ys, rfl⟩ := List.exists_cons_of_ne_nil hmore
  rw [hpack, ← hback]
  exact unpack_cons8 p q r s t u v y ys

theorem exists_of_length_eq_seven : ∀ {s : List Byte}, s.length = 7 → ∃ a b c d e f g, s = [a, b, c, d, e, f, g]
  | [a, b, c, d, e, f, g], _ => ⟨a, b, c, d, e, f, g, rfl⟩

/-- Seven septets pack as a full block whose eighth is 0, which unpacking drops (40 R85, 41 R104). -/
theorem unpack_pack_short {s : List Byte} (hs : allSeptets s = true) (hlen : s.length < 8) : unpack (pack s) = s := by
  rcases Nat.lt_succ_iff_lt_or_eq.1 hlen with hlt | hseven
  · have hoctets : (packPartial 0 s).length < 7 := by rwa [packPartial_length]
    rw [pack_short s hlen, unpack_short _ hoctets, unpackPartial_packPartial hs (Nat.le_of_lt hlen)]
  · obtain ⟨a, b, c, d, e, f, g, rfl⟩ := exists_of_length_eq_seven hseven
    have hzero : allSeptets ([a, b, c, d, e, f, g] ++ [0#8]) = true := by
      rw [allSeptets_append, hs]
      rfl
    rw [pack_short _ hlen, ← packBlock8_zero, unpack_packBlock8 hzero]
    rfl

theorem pack_ne_nil {s : List Byte} (h : s ≠ []) : pack s ≠ [] := by
  have hlen := pack_length s
  have hpos := List.length_pos_iff.2 h
  rw [← List.length_pos_iff]
  omega

/-- By blocks: one with more after it comes back whole, and the last one loses nothing outside the class (42 R122). -/
theorem unpack_pack {s : List Byte} (hs : allSeptets s = true) (hkeeps : ¬ LosesLastZero s) : unpack (pack s) = s := by
  induction s using block8_induct with
  | short s hlen => exact unpack_pack_short hs hlen
  | step a b c d e f g h rest ih =>
    have hsplit := allSeptets_append [a, b, c, d, e, f, g, h] rest
    obtain ⟨hblock, hrest⟩ := Bool.and_eq_true_iff.1 (hsplit.symm.trans hs)
    rw [pack_cons8]
    cases rest with
    | nil =>
      have hlast : h ≠ 0#8 := fun hzero => hkeeps ⟨Nat.le_refl 8, Nat.mod_self 8, congrArg some hzero⟩
      have hnil : pack [] = [] := rfl
      rw [hnil, List.append_nil, unpack_packBlock8 hblock, if_neg hlast]
      rfl
    | cons y r =>
      have hrestKeeps : ¬ LosesLastZero (y :: r) := fun ⟨_, hmod, hlast⟩ =>
        hkeeps ⟨Nat.le_add_left 8 _, (Nat.add_mod_right _ 8).trans hmod, by simpa using hlast⟩
      rw [unpack_packBlock8_append hblock (pack_ne_nil (List.cons_ne_nil y r)), ih hrest hrestKeeps]
      rfl

/-- A zero that ends a full block leaves no trace in the octets (40 R85), so it is dropped, and nothing else (42
R123). -/
theorem pack_dropLast {s : List Byte} (hloses : LosesLastZero s) : pack s.dropLast = pack s := by
  obtain ⟨hlen, hmod, hlast⟩ := hloses
  obtain ⟨t, rfl⟩ := List.getLast?_eq_some_iff.1 hlast
  rw [List.length_append, List.length_singleton] at hmod
  rw [List.dropLast_concat, pack_append_zero t (by omega)]

theorem unpack_pack_of_losesLastZero {s : List Byte} (hs : allSeptets s = true) (hloses : LosesLastZero s) :
    unpack (pack s) = s.dropLast := by
  rw [← pack_dropLast hloses]
  refine unpack_pack (List.all_eq_true.2 fun x hx => List.all_eq_true.1 hs x (List.mem_of_mem_dropLast hx)) ?_
  rintro ⟨-, hmod', -⟩
  obtain ⟨hlen, hmod, -⟩ := hloses
  rw [List.length_dropLast] at hmod'
  omega

theorem LosesLastZero.dropLast_ne {s : List Byte} (hloses : LosesLastZero s) : s.dropLast ≠ s := by
  obtain ⟨hlen, -, -⟩ := hloses
  intro heq
  have hshort := congrArg List.length heq
  rw [List.length_dropLast] at hshort
  omega

/-- Settles O26: outside the class every septet comes back, and inside it the last one does not. -/
theorem roundTripExactly : Obligations.RoundTripExactly := by
  intro s hs
  refine ⟨fun hback (hloses : LosesLastZero s) => ?_, unpack_pack hs⟩
  exact hloses.dropLast_ne ((unpack_pack_of_losesLastZero hs hloses).symm.trans hback)

/-- Settles O27: the packed octets are those of the sequence without its last element, which is outside the class. -/
theorem roundTripDropsOneZero : Obligations.RoundTripDropsOneZero := by
  intro s hs hlen hmod hlast
  have hloses : LosesLastZero s := ⟨hlen, hmod, hlast⟩
  have hdrop := unpack_pack_of_losesLastZero hs hloses
  exact ⟨hdrop, hdrop ▸ hloses.dropLast_ne, pack_dropLast hloses⟩

/-! ### `pack` after `unpack` -/

theorem pack_unpackBlock7 (a b c d e f g : Byte) : pack (unpackBlock7 a b c d e f g) = [a, b, c, d, e, f, g] := by
  obtain ⟨p, q, r, s, t, u, v, w, hunpack, hback⟩ := packBlock8_unpackBlock7 a b c d e f g
  rw [hunpack, pack_cons8, hback]
  rfl

/-- The eighth septet that is dropped because it is 0 adds nothing to the octets (42 R133). -/
theorem pack_unpackFinal7 (a b c d e f g : Byte) : pack (unpackFinal7 a b c d e f g) = [a, b, c, d, e, f, g] := by
  rw [← pack_unpackBlock7, unpackFinal7, unpackBlock7]
  split_ifs with hzero
  · rw [hzero, pack_append_zero _ (by rw [unpackFirst7_length]), List.append_nil]
  · rfl

/-- Settles O30: by blocks, each of which comes back; what can be lost is in the final partial group. -/
theorem unpackThenPackExactly : Obligations.UnpackThenPackExactly := by
  intro o
  induction o using block7_induct with
  | short o hlen =>
    rcases eq_or_ne o [] with rfl | hne
    · exact iff_of_true rfl (.inl rfl)
    · have hpos : o.length ≠ 0 := fun hzero => hne (List.eq_nil_of_length_eq_zero hzero)
      have hshort : (unpackPartial o).length < 8 := by rw [unpackPartial_length]; omega
      rw [unpack_short o hlen, pack_short _ hshort, packPartial_unpackPartial_iff hne (by omega),
        Nat.mod_eq_of_lt hlen, or_iff_right hpos]
  | final a b c d e f g =>
    rw [unpack_final]
    exact iff_of_true (pack_unpackFinal7 a b c d e f g) (.inl (Nat.mod_self 7))
  | step a b c d e f g h rest ih =>
    have hblock : pack (unpackBlock7 a b c d e f g ++ unpack (h :: rest))
        = [a, b, c, d, e, f, g] ++ pack (unpack (h :: rest)) := by
      rw [packBlocksAreIndependent _ _ (by rw [unpackBlock7_length]), pack_unpackBlock7]
    have hmod : (a :: b :: c :: d :: e :: f :: g :: h :: rest).length % 7 = (h :: rest).length % 7 :=
      Nat.add_mod_right (h :: rest).length 7
    have hlast : (a :: b :: c :: d :: e :: f :: g :: h :: rest).getLastD 0#8 = (h :: rest).getLastD 0#8 := by
      simp only [List.getLastD_cons]
    rw [unpack_cons8, hblock, hmod, hlast, ← ih]
    exact List.append_right_inj [a, b, c, d, e, f, g]

/-! ### Single elements, and the two parts of a formula -/

/-- Settles O28: one element is a partial block or group at position 0, where nothing is shifted. -/
theorem shortSequences : Obligations.ShortSequences := by
  refine ⟨rfl, rfl, fun a _ => ?_, fun a => ?_⟩
  · rw [pack_short [a] (by decide : 1 < 8), packPartial_one, BitVec.ushiftRight_zero]
  · rw [unpack_short [a] (by decide : 1 < 7), unpackPartial_cons, unpackPartialFrom_nil]

theorem shiftRight_lt_two_pow {v m n k : Nat} (h : v < 2 ^ k) (hk : m + n = k) : v >>> n < 2 ^ m := by
  rw [Nat.shiftRight_eq_div_pow, Nat.div_lt_iff_lt_mul (Nat.two_pow_pos _), ← Nat.pow_add, hk]
  exact h

/-- The septet before has `8 - p` bits left, and the next one is shifted above them (42 R129). -/
theorem octetFormed_eq_add {p : Nat} {prev : Byte} (x : Byte) (h1 : 1 ≤ p) (h7 : p ≤ 7)
    (hprev : isSeptet prev = true) :
    octetFormed p prev x = BitVec.ofNat 8 (prev.toNat >>> (p - 1) + x.toNat <<< (8 - p)) := by
  have hseptet : prev.toNat < 2 ^ 7 := Nat.lt_succ_of_le ((isSeptet_iff_le prev).1 hprev)
  have hlow : prev.toNat >>> (p - 1) < 2 ^ (8 - p) := shiftRight_lt_two_pow hseptet (by omega)
  rw [octetFormed, cut8_eq, Nat.or_comm, ← Nat.shiftLeft_add_eq_or_of_lt hlow, Nat.add_comm]

/-- The octet before has `q` bits left, and the next one is shifted above them (42 R130). -/
theorem septetFormed_toNat {q : Nat} (prev y : Byte) (h6 : q ≤ 6) :
    (septetFormed q prev y).toNat = prev.toNat >>> (8 - q) + y.toNat <<< q % 128 := by
  have hlow : prev.toNat >>> (8 - q) < 2 ^ q := shiftRight_lt_two_pow prev.isLt (by omega)
  have hhigh : y.toNat <<< q % 128 = (y.toNat % 2 ^ (7 - q)) <<< q := by
    rw [Nat.shiftLeft_eq, Nat.shiftLeft_eq, ← Nat.mul_mod_mul_right, ← Nat.pow_add, show 7 - q + q = 7 by omega]
  have hsum : prev.toNat >>> (8 - q) ||| cut7 (y.toNat <<< q) = prev.toNat >>> (8 - q) + y.toNat <<< q % 128 := by
    rw [cut7_eq_mod, hhigh, Nat.or_comm, ← Nat.shiftLeft_add_eq_or_of_lt hlow, Nat.add_comm]
  have hbound : 2 ^ q ≤ 2 ^ 6 := Nat.pow_le_pow_right (by decide) h6
  rw [septetFormed, hsum, BitVec.toNat_ofNat, Nat.mod_eq_of_lt (by omega)]

/-- Settles O35: for each unit the lower part ends where the shifted part begins. -/
theorem combinedPartsAreDisjoint : Obligations.CombinedPartsAreDisjoint :=
  ⟨fun _ _ x h1 h7 hprev => octetFormed_eq_add x h1 h7 hprev,
    fun _ prev y _ h6 => ⟨septetFormed_toNat prev y h6, isSeptet_septetFormed (Nat.le_succ_of_le h6) prev y⟩⟩

end Sys2Proof.Machine
end

section
/-! PROOFS. The fault latch and the wired connection (60 R140 to R153): what raises `err`, where it stops SP, and SP wired
to SU. -/

namespace Sys2Proof.Machine

/-! ### A token over a wire -/

/-- A link's move runs the sender's head token at the receiver, and delivers it, if the receiver accepts (60 R150). -/
theorem consumerMove_accepts {u : UnitId} {s : State} {tok : Token} {q : List Token} (hfed : fedByPeer s u.peer = true)
    (hwas : (portOf s u).wasReset = true) (hrst : (portOf s u).rst = false) (hpend : pendOf s u = tok :: q)
    (hcan : canAccept s u.peer = true) :
    consumerMove u s = exec (decodeToken u.peer tok) (deliverHead u tok q s) := by
  simp [consumerMove, hfed, hwas, hrst, hpend, hcan]

/-- Settles O41: the move is the link's, and each of its conditions is given. -/
theorem stepRunsTheLinkedToken : Obligations.StepRunsTheLinkedToken := by
  intro s u tok q rest hsched hfed hwas hrst hpend hcan
  have hmove := consumerMove_accepts (s := { s with schedule := rest }) hfed hwas hrst hpend hcan
  simp only [deliverHead, portOf_schedule] at hmove
  rw [step_of_schedule_cons hsched]
  exact hmove

/-! ### What raises `err` -/

/-- DomainError is raised where SP accepts PUT7.OOR under `fault` (60 R140). -/
theorem exec_put7Oor_sets_err {s t : State} {d : Septet} (h : exec (.put7Oor d) s = .next t)
    (hcan : canAccept s .sp = true) (hpol : s.config.rangePolicy = .fault) : t.sp.err = true := by
  rw [exec_put7Oor_fault hcan hpol] at h
  cases h
  rfl

/-- Settles O36: forwards, neither a reset nor a quiet step sets `err`, and of the tokens SP accepts only PUT7.OOR under
`fault` does; backwards, the step is `exec` of that token, offered or linked. -/
theorem errRisesByDomainErrorOnly : Obligations.ErrRisesByDomainErrorOnly := by
  intro s t h hclear
  constructor
  · intro hset
    rcases step_unit_cases .sp h with hreset | hquiet | ⟨tok, hacc⟩
    · have hregs : t.sp = Packer.afterReset := by simpa [atReset] using hreset.regs
      rw [hregs] at hset
      cases hset
    · have hsame : t.sp.err = s.sp.err := hquiet.err
      rw [hsame, hclear] at hset
      cases hset
    · have hregs : t.sp = spEffect s.config.rangePolicy (decodeSp tok) s.sp := hacc.regs
      rw [hregs] at hset
      rcases spEffect_err s.config.rangePolicy (decodeSp tok) s.sp with hsame | ⟨⟨d, hd⟩, hpol⟩
      · rw [hsame, hclear] at hset
        cases hset
      · refine ⟨hpol, hacc.can, tok, d, ?_⟩
        rcases hacc.source with ⟨hfed, hoffer, -, rest, hsched⟩ | ⟨hfed, -, hwas, hrst, hpend, -, rest, hsched⟩
        · exact ⟨_, rest, hd, hsched, .inl ⟨rfl, hfed, hoffer⟩⟩
        · exact ⟨_, rest, hd, hsched, .inr ⟨rfl, hfed, hwas, hrst, congrArg List.head? hpend⟩⟩
  · rintro ⟨hpol, hcan, tok, d, e, rest, hd, hsched, ⟨rfl, hfed, hoffer⟩ | ⟨rfl, hfed, hwas, hrst, hhead⟩⟩
    · rw [step_of_schedule_cons hsched] at h
      have hmove := unitMove_accepts (u := .sp) (s := { s with schedule := rest }) hfed hoffer hcan
      rw [hd] at hmove
      exact exec_put7Oor_sets_err (hmove.symm.trans h) hcan hpol
    · obtain ⟨q, hpend⟩ := List.head?_eq_some_iff.1 hhead
      rw [stepRunsTheLinkedToken s .su tok q rest hsched hfed hwas hrst hpend hcan] at h
      rw [UnitId.peer, hd] at h
      exact exec_put7Oor_sets_err h hcan hpol

/-- Settles O38: a quiet step leaves the registers, the stream and what was emitted, and SP accepts no token while `err`
is 1. -/
theorem faultedPackerIsStuck : Obligations.FaultedPackerIsStuck := by
  intro k s t herr hnoReset hrun
  refine run_induct (u := .sp) (P := fun s t => errOf s .sp = true →
      errOf t .sp = true ∧ blockOf t .sp = blockOf s .sp ∧ streamLeft t .sp = streamLeft s .sp
      ∧ emittedAll t .sp = emittedAll s .sp)
    (fun s herr => ⟨herr, rfl, rfl, rfl⟩) ?_ k s t hnoReset hrun herr
  rintro s m t - (hquiet | ⟨tok, hacc⟩) ih herr
  · have hrest := ih (hquiet.err.trans herr)
    rwa [hquiet.block, hquiet.left, hquiet.emitted] at hrest
  · rw [errOf_of_canAccept hacc.can] at herr
    cases herr

/-! ### SP in the middle of a sequence -/

theorem spConsume_phase (x : Byte) (p : Packer) : (spConsume x p).phase = p.phase + 1#3 := by
  by_cases h0 : p.phase = 0#3
  · rw [spConsume_of_phase_eq_zero h0, h0]
    rfl
  · rw [spConsume_of_phase_ne_zero h0]
    by_cases h7 : p.phase = 7#3 <;> simp [h7]

theorem spConsume_err (x : Byte) (p : Packer) : (spConsume x p).err = p.err := by
  by_cases h0 : p.phase = 0#3
  · rw [spConsume_of_phase_eq_zero h0]
  · rw [spConsume_of_phase_ne_zero h0]

/-- `phase` counts the septets modulo 8 (10 R21). -/
theorem spData_phase (xs : List Byte) : ∀ p : Packer, (spData p xs).phase = p.phase + BitVec.ofNat 3 xs.length := by
  induction xs with
  | nil => intro p; simp [spData]
  | cons x xs ih =>
    intro p
    have hfeed : spData p (x :: xs) = spData (spConsume x p) xs := rfl
    rw [hfeed, ih, spConsume_phase, List.length_cons, BitVec.ofNat_add, BitVec.add_assoc, BitVec.add_comm 1#3]

theorem spData_err (xs : List Byte) : ∀ p : Packer, (spData p xs).err = p.err := by
  induction xs with
  | nil => intro p; rfl
  | cons x xs ih => intro p; exact (ih _).trans (spConsume_err x p)

/-- The octets the septets `xs` complete: all of `pack xs` but the closing octet of a partial block (60 R144). -/
def completedOctets (xs : List Byte) : List Byte := (pack xs).take (xs.length - (xs.length + 7) / 8)

theorem completedOctets_of_whole_blocks {xs : List Byte} (h : xs.length % 8 = 0) : completedOctets xs = pack xs := by
  have hlen := pack_length xs
  exact List.take_of_length_le (by omega)

theorem completedOctets_of_partial_block {xs : List Byte} (h : xs.length % 8 ≠ 0) :
    completedOctets xs = (pack xs).dropLast := by
  have hlen := pack_length xs
  have hcount : xs.length - (xs.length + 7) / 8 = (pack xs).length - 1 := by omega
  rw [completedOctets, hcount, List.dropLast_eq_take]

/-- Data bytes from phase 0: END would add the closing octet of a partial block, if there is one, and END (40 R90). -/
theorem spData_pend (xs : List Byte) (er : Bool) (q : List Token) :
    (spData ⟨0#3, 0#8, er, q⟩ xs).pend = q ++ (completedOctets xs).map Token.ofData := by
  have hphase : (spData ⟨0#3, 0#8, er, q⟩ xs).phase = 0#3 ↔ xs.length % 8 = 0 := by
    rw [spData_phase, BitVec.zero_add, ← BitVec.toNat_inj, BitVec.toNat_ofNat]
    rfl
  have hclosed := congrArg Packer.pend (spFinish_spData xs er q)
  simp only [spFinish_eq, hphase, closedOutput, ← List.append_assoc] at hclosed
  by_cases hmod : xs.length % 8 = 0
  · rw [if_pos hmod] at hclosed
    rw [completedOctets_of_whole_blocks hmod]
    exact List.append_cancel_right hclosed
  · have hne : pack xs ≠ [] := pack_ne_nil fun hnil => hmod (by rw [hnil]; rfl)
    rw [if_neg hmod, List.append_cons] at hclosed
    have hlast := congrArg List.dropLast (List.append_cancel_right hclosed)
    rw [List.dropLast_concat, List.dropLast_append_of_ne_nil (by simpa using hne), ← List.map_dropLast] at hlast
    rw [completedOctets_of_partial_block hmod, hlast]

/-! ### The fault is precise -/

/-- A byte in the range of septets is the same under every policy (40 R88). -/
theorem underPolicy_of_isSeptet (policy : RangePolicy) {x : Byte} (h : isSeptet x = true) : underPolicy policy x = x := by
  cases policy with
  | fault => rfl
  | mask => exact (septet_of_low x ((isSeptet_iff x).1 h)).2
  | raw => rfl

theorem map_underPolicy_of_allSeptets (policy : RangePolicy) {xs : List Byte} (h : allSeptets xs = true) :
    xs.map (underPolicy policy) = xs :=
  (List.map_congr_left fun x hx => underPolicy_of_isSeptet policy (List.all_eq_true.1 h x hx)).trans (List.map_id xs)

theorem flatMap_packed_underPolicy (policy : RangePolicy) {xss : List (List Byte)}
    (h : ∀ xs ∈ xss, allSeptets xs = true) :
    (xss.flatMap fun xs => closedOutput (pack (xs.map (underPolicy policy))))
      = xss.flatMap fun xs => closedOutput (pack xs) :=
  List.flatMap_congr fun xs hxs => by rw [map_underPolicy_of_allSeptets policy (h xs hxs)]

/-- Whole sequences of septets and the septets of one more, fed to SP at phase 0. -/
theorem spFeed_open_sequence (policy : RangePolicy) {xss : List (List Byte)} {xs : List Byte}
    (hxss : ∀ ys ∈ xss, allSeptets ys = true) (hxs : allSeptets xs = true) (er : Bool) (q : List Token) :
    spFeed policy ⟨0#3, 0#8, er, q⟩ (tokensOf (xss.flatMap packProgram ++ xs.map putByte))
      = spData ⟨0#3, 0#8, er, q ++ xss.flatMap fun ys => closedOutput (pack ys)⟩ xs := by
  rw [tokensOf_append, spFeed_append, spFeed_packPrograms _ _ _ _ fun _ => hxss, flatMap_packed_underPolicy _ hxss,
    spFeed_data _ _ fun _ => hxs, map_underPolicy_of_allSeptets _ hxs]

theorem spFeed_bad_byte (p : Packer) (d : Septet) :
    spFeed .fault p [encodeToken (.put7Oor d)] = takeDomainError p := by
  simp only [spFeed, List.foldl_cons, List.foldl_nil, decodeSp_put7Oor]
  rfl

/-- A run of SP from `err` 0 over tokens that leave `err` 0, a bad byte and more: if it has ended, SP accepted the first
tokens and the bad byte, and nothing after it (60 R143). -/
theorem sp_stops_at_bad_byte {k : Nat} {s t : State} {good : List Token} {d : Septet} {after : List Token}
    (hpol : s.config.rangePolicy = .fault) (hunwired : s.config.suToSp = false) (hnoReset : noReset .sp s = true)
    (hgood : (spFeed .fault (spHistory s) good).err = false)
    (hstream : streamLeft s .sp = good ++ encodeToken (.put7Oor d) :: after)
    (hrun : core.run k s = .next t) (hended : ended t .sp = true) :
    streamLeft t .sp = after ∧ spHistory t = takeDomainError (spFeed .fault (spHistory s) good) := by
  obtain ⟨acc, hleft, hhist, hclear⟩ := sp_trace hnoReset hunwired hrun
  rw [hpol] at hhist hclear
  have hstopped : streamLeft t .sp ≠ [] → (spHistory t).err = true := fun hne => by
    simp only [ended, errOf, Bool.and_eq_true, Bool.or_eq_true, List.isEmpty_iff, hne, false_or] at hended
    exact hended.2
  rcases List.append_eq_append_iff.1 (hstream.symm.trans hleft) with ⟨more, rfl, hrest⟩ | ⟨more, rfl, hrest⟩
  · cases more with
    | nil =>
      have hset := hstopped fun hnil => by simp [hnil] at hrest
      rw [hhist, List.append_nil, hgood] at hset
      cases hset
    | cons bad more =>
      obtain ⟨rfl, rfl⟩ := List.cons.inj hrest
      cases more with
      | nil => exact ⟨rfl, by rw [hhist, spFeed_append, spFeed_bad_byte]⟩
      | cons tok more =>
        have hset := hclear (good ++ [encodeToken (.put7Oor d)]) tok more (by simp)
        rw [spFeed_append, spFeed_bad_byte] at hset
        cases hset
  · have hset := hstopped fun hnil => by simp [hnil] at hrest
    have hstuck := spFeed_keeps_err (policy := .fault) more hset
    rw [hhist, ← spFeed_append, hgood] at hstuck
    cases hstuck

/-- Settles O39: the whole sequences and the prefix leave `err` 0, so SP stops at the bad byte with what they emitted. -/
theorem faultIsPrecise : Obligations.FaultIsPrecise := by
  intro k s t xss xs d after hpol hunwired _ hreset hnoReset hxss hxs hstream hrun hended
  have hstart : spHistory s = ⟨0#3, 0#8, false, s.spPort.output⟩ := by
    simp [spHistory, emittedAll, portOf, pendOf, hreset, Packer.afterReset]
  have hfeed := spFeed_open_sequence .fault hxss hxs false s.spPort.output
  rw [← hstart] at hfeed
  rw [tokensOf_append] at hstream
  have hgood := spData_err xs ⟨0#3, 0#8, false, s.spPort.output ++ xss.flatMap fun ys => closedOutput (pack ys)⟩
  rw [← hfeed] at hgood
  obtain ⟨hleft, hhist⟩ := sp_stops_at_bad_byte hpol hunwired hnoReset hgood hstream hrun hended
  have hpend : t.sp.pend = [] := by
    simp only [ended, pendOf, Bool.and_eq_true, List.isEmpty_iff] at hended
    exact hended.1
  refine ⟨congrArg Packer.err hhist, hleft, ?_⟩
  have hout := congrArg Packer.pend hhist
  rw [hfeed, takeDomainError_pend, spData_pend] at hout
  simpa [spHistory, emittedAll, portOf, pendOf, hpend, completedOctets] using hout

/-! ### SP wired to SU -/

/-- The tokens SP emits for a sequence are those SU takes for it (30 R63, 60 R150). -/
theorem closedOutput_eq_tokensOf_unpackProgram (ys : List Byte) : closedOutput ys = tokensOf (unpackProgram ys) := by
  simp only [closedOutput, tokensOf, unpackProgram, List.map_append, List.map_map]
  rfl

/-- One step of SP wired to SU, which is not reset: SU takes what SP delivers, and nothing else. -/
theorem chain_step {s m : State} (hwired : s.config.spToSu = true) (h : step s = .next m)
    (hsu : Quiet .su s m ∨ ∃ tok, Accepts .su tok s m) :
    ∃ sent, m.spPort.output = s.spPort.output ++ sent ∧ suHistory m = suFeed (suHistory s) sent := by
  rcases step_delivers .sp h with hkept | ⟨tok, hgrown, hlink⟩
  · refine ⟨[], hkept.trans (List.append_nil _).symm, ?_⟩
    rcases hsu with hquiet | ⟨tok, hacc⟩
    · exact suHistory_quiet hquiet
    · rcases hacc.source with ⟨hfed, -⟩ | ⟨-, -, -, -, -, hgrown, -⟩
      · rw [fedByPeer, hwired] at hfed
        cases hfed
      · rw [UnitId.peer, hkept] at hgrown
        simp at hgrown
  · exact ⟨[tok], hgrown, suHistory_accepts (hlink hwired)⟩

/-- A run of SP wired to SU, which is not reset: SU's history is that of feeding it what SP has delivered. -/
theorem chain_trace {k : Nat} {s t : State} (hn : noReset .su s = true) (hwired : s.config.spToSu = true)
    (h : core.run k s = .next t) :
    ∃ sent, t.spPort.output = s.spPort.output ++ sent ∧ suHistory t = suFeed (suHistory s) sent := by
  refine run_induct (u := .su) (P := fun s t => s.config.spToSu = true →
      ∃ sent, t.spPort.output = s.spPort.output ++ sent ∧ suHistory t = suFeed (suHistory s) sent)
    (fun s _ => ⟨[], (List.append_nil _).symm, rfl⟩) ?_ k s t hn h hwired
  intro s m t hstep hsu ih hwired
  obtain ⟨first, hfirst, hhist⟩ := chain_step hwired hstep hsu
  obtain ⟨sent, hsent, hhist'⟩ := ih (by rw [step_config hstep, hwired])
  exact ⟨first ++ sent, by rw [hsent, hfirst, List.append_assoc], by rw [hhist', hhist, suFeed_append]⟩

/-- Settles O52: SP delivers the results of `pack`, which are the programs of `unpack` that SU is fed. -/
theorem chainComputesRoundTrip : Obligations.ChainComputesRoundTrip := by
  intro k s t xss hwired hunwired hwas _ hreset hresetSu hnoReset hnoResetSu hxss hstream hrun hended hempty
  obtain ⟨-, hpacked⟩ := packerComputesPack k s t xss hunwired hwas hreset hnoReset (fun _ => hxss) hstream hrun hended
  obtain ⟨sent, hsent, hhist⟩ := chain_trace hnoResetSu hwired hrun
  have hstart : suHistory s = ⟨0#3, 0#8, s.suPort.output⟩ := by
    simp [suHistory, emittedAll, portOf, pendOf, hresetSu, Unpacker.afterReset]
  have hprograms : sent = tokensOf ((xss.map pack).flatMap unpackProgram) := by
    rw [hpacked, flatMap_packed_underPolicy _ hxss] at hsent
    rw [← List.append_cancel_left hsent]
    simp only [closedOutput_eq_tokensOf_unpackProgram, tokensOf, List.map_flatMap, List.flatMap_map]
  rw [hstart, hprograms, suFeed_unpackPrograms, List.flatMap_map] at hhist
  have hpend : t.su.pend = [] := List.isEmpty_iff.1 hempty
  simpa [suHistory, emittedAll, portOf, pendOf, hpend] using congrArg Unpacker.pend hhist

end Sys2Proof.Machine
end

section
/-! PROOFS. The moves of the agents, a held reset and the pins (70 R160, R175, R176). -/

namespace Sys2Proof.Machine

/-! ### The scheduled move by agent -/

/-- Settles O40: the move is the unit's, and it takes the token off the port. -/
theorem stepRunsTheOfferedToken : Obligations.StepRunsTheOfferedToken := by
  intro s u tok rest hsched hfed hoffer hcan
  have hmove := unitMove_accepts (s := { s with schedule := rest }) (by rwa [fedByPeer_schedule])
    (by rwa [portOf_schedule]) (by rwa [canAccept_schedule])
  rw [takeOffer, portOf_schedule] at hmove
  rw [step_of_schedule_cons hsched]
  exact hmove

theorem consumerMove_of_pend_cons {s : State} {u : UnitId} {tok : Token} {q : List Token}
    (hfed : fedByPeer s u.peer = false) (hwas : (portOf s u).wasReset = true) (hrst : (portOf s u).rst = false)
    (hpend : pendOf s u = tok :: q) : consumerMove u s = .next (deliverHead u tok q s) := by
  simp [consumerMove, hfed, hwas, hrst, hpend]

theorem consumerMove_of_pend_nil {s : State} {u : UnitId} (hwas : (portOf s u).wasReset = true)
    (hpend : pendOf s u = []) : consumerMove u s = .next s := by
  simp [consumerMove, hwas, hpend]

theorem producerMove_offers {s : State} {u : UnitId} {tok : Token} {more : List Token} (hfed : fedByPeer s u = false)
    (hoffer : (portOf s u).offer = none) (hinput : (portOf s u).input = tok :: more) :
    producerMove u s = setPort s u { portOf s u with offer := some tok, input := more } := by
  simp [producerMove, hfed, hoffer, hinput]

theorem unitMove_of_offer_none {s : State} {u : UnitId} (hoffer : (portOf s u).offer = none) :
    unitMove u s = .next s := by
  simp [unitMove, hoffer]

/-- A token on offer waits at a unit that cannot accept it (93 U8). -/
theorem unitMove_waits {s : State} {u : UnitId} {tok : Token} (hwas : (portOf s u).wasReset = true)
    (hfed : fedByPeer s u = false) (hoffer : (portOf s u).offer = some tok) (hcan : canAccept s u = false) :
    unitMove u s = .next s := by
  have hwaits := unacceptedTokenHasNoEffect (decodeToken u tok) s (by rwa [port_decodeToken])
  rw [port_decodeToken, if_pos hwas] at hwaits
  simpa [unitMove, hfed, hoffer, hcan] using hwaits

/-- Settles O43: each clause is the step of its agent's move. -/
theorem otherAgentsMove : Obligations.OtherAgentsMove := by
  intro s u rest
  refine ⟨fun tok q hsched hfed hwas hrst hpend => ?_, fun tok more hsched hfed hoffer hinput => ?_,
    fun hsched hoffer => ?_, step_of_schedule_nil⟩
  · have hmove := consumerMove_of_pend_cons (s := { s with schedule := rest }) (by rwa [fedByPeer_schedule])
      (by rwa [portOf_schedule]) (by rwa [portOf_schedule]) (by rwa [pendOf_schedule])
    rw [deliverHead, portOf_schedule] at hmove
    rw [step_of_schedule_cons hsched]
    exact hmove
  · have hmove := producerMove_offers (s := { s with schedule := rest }) (by rwa [fedByPeer_schedule])
      (by rwa [portOf_schedule]) (by rwa [portOf_schedule])
    rw [portOf_schedule] at hmove
    rw [step_of_schedule_cons hsched]
    exact congrArg _ hmove
  · rw [step_of_schedule_cons hsched]
    exact unitMove_of_offer_none (by rwa [portOf_schedule])

/-- Settles O47: there is a token on offer to withdraw. -/
theorem brokenHandshakeHasNoMove : Obligations.BrokenHandshakeHasNoMove := by
  intro s u tok rest hsched hoffer
  rw [step_of_schedule_cons hsched]
  simp [agentMove, withdrawMove, hoffer]

/-- Settles O46: a reset leaves the unit's streams; a quiet step delivers, and a unit accepts, only while `rst` is 0. -/
theorem heldResetStopsTransfers : Obligations.HeldResetStopsTransfers := by
  intro s t u h hheld
  rcases step_unit_cases u h with hreset | hquiet | ⟨tok, hacc⟩
  · obtain ⟨level, hport⟩ := hreset.port
    simp [streamLeft, hport]
  · refine ⟨hquiet.left, ?_⟩
    rcases hquiet.delivered with ⟨hsame, -⟩ | ⟨tok, ⟨-, hrst⟩, -⟩
    · exact hsame
    · rw [hheld] at hrst
      cases hrst
  · have hrst := rst_of_canAccept hacc.can
    rw [hheld] at hrst
    cases hrst

/-! ### The pins -/

theorem outWord_of_outValid {s : State} {u : UnitId} {moment : Nat} {tok : Token} {q : List Token}
    (hwas : (portOf s u).wasReset = true) (hvalid : outValid s u moment = true) (hpend : pendOf s u = tok :: q) :
    outWord s u moment = tok.toWord := by
  simp [outWord, hwas, hvalid, hpend]

theorem outWord_of_not_wasReset {s : State} {u : UnitId} (h : (portOf s u).wasReset = false) (moment : Nat) :
    outWord s u moment = Config.freeOut u moment := by
  simp [outWord, h]

theorem inValid_of_fedByPeer {s : State} {u : UnitId} (h : fedByPeer s u = true) (moment : Nat) :
    inValid s u moment = outValid s u.peer moment := if_pos h

/-- Of a unit that has been reset, `out_valid` shows that a token is waiting (70 R175). -/
theorem outValid_iff {s : State} {u : UnitId} (h : (portOf s u).wasReset = true) (moment : Nat) :
    outValid s u moment = true ↔ (portOf s u).rst = false ∧ pendOf s u ≠ [] := by
  simp [outValid_of_wasReset h]

/-- Settles O48: `in_ready` is `canAccept`, which asks for an empty `pend`; `out_valid` asks for one that is not. -/
theorem pinsShowTheQueue : Obligations.PinsShowTheQueue := by
  intro s u moment
  refine ⟨fun hwas => ?_, fun hnot => ⟨inReady_of_not_wasReset hnot _, outValid_of_not_wasReset hnot _,
    outWord_of_not_wasReset hnot _⟩, fun hfed => inValid_of_fedByPeer hfed _⟩
  rw [inReady_of_wasReset hwas]
  refine ⟨fun hcan => ⟨pendOf_of_canAccept hcan, rst_of_canAccept hcan, errOf_of_canAccept hcan⟩, fun hvalid => ?_, ?_⟩
  · obtain ⟨hrst, hpend⟩ := (outValid_iff hwas _).1 hvalid
    obtain ⟨tok, q, hcons⟩ := List.exists_cons_of_ne_nil hpend
    exact ⟨hrst, tok, q, hcons, outWord_of_outValid hwas hvalid hcons⟩
  · rintro ⟨hcan, hvalid⟩
    obtain ⟨-, hpend⟩ := (outValid_iff hwas _).1 hvalid
    exact hpend (pendOf_of_canAccept hcan)

end Sys2Proof.Machine
end

section
/-! PROOFS. Runs that end, runs that have ended, and sequences still open (70 R165, R173, R177). -/

namespace Sys2Proof.Machine

/-! ### A fair run ends -/

/-- An unwired unit out of reset with at most `n` tokens left to accept, or stopped by `err`: what a fair schedule makes
progress on. -/
structure Within (u : UnitId) (n : Nat) (s : State) : Prop where
  unwired : Unwired s
  wasReset : (portOf s u).wasReset = true
  rst : (portOf s u).rst = false
  left : (streamLeft s u).length ≤ n ∨ errOf s u = true

section
variable {u : UnitId} {n : Nat} {s m : State} {rest : List Event}

theorem Within.of_quiet (h : Within u n s) (hstep : step s = .next m) (hq : Quiet u s m) : Within u n m where
  unwired := h.unwired.of_config (step_config hstep)
  wasReset := hq.wasReset.trans h.wasReset
  rst := Bool.eq_false_iff.2 fun hm => by
    have hs := hq.rst hm
    rw [h.rst] at hs
    cases hs
  left := by
    rw [hq.left, hq.err]
    exact h.left

/-- An unwired unit takes an accepted token off its own port. -/
theorem Accepts.left_eq {tok : Token} (h : Accepts u tok s m) (hfed : fedByPeer s u = false) :
    streamLeft s u = tok :: streamLeft m u := by
  rcases h.source with ⟨-, hoffer, hport, -⟩ | ⟨hwired, -⟩
  · simp [streamLeft, hoffer, hport]
  · rw [hfed] at hwired
    cases hwired

/-- An accepted token is one less to accept. -/
theorem Within.of_accepts {tok : Token} (h : Within u (n + 1) s) (hstep : step s = .next m)
    (ha : Accepts u tok s m) : Within u n m where
  unwired := h.unwired.of_config (step_config hstep)
  wasReset := ha.pins.2.trans h.wasReset
  rst := ha.pins.1.trans h.rst
  left := by
    have hleft := h.left
    rw [ha.left_eq (h.unwired u), errOf_of_canAccept ha.can, List.length_cons] at hleft
    exact .inl (Nat.le_of_succ_le_succ (hleft.resolve_right nofun))

/-- A unit whose producer offers a token it can accept makes a step, and accepts it. -/
theorem unit_step_accepts {tok : Token} (hsched : s.schedule = .unit u :: rest) (hfed : fedByPeer s u = false)
    (hoffer : (portOf s u).offer = some tok) (hcan : canAccept s u = true) :
    ∃ m, step s = .next m ∧ Accepts u tok s m := by
  have hcan' : canAccept (takeOffer u { s with schedule := rest }) u = true := by
    rwa [canAccept_takeOffer, canAccept_schedule]
  rw [stepRunsTheOfferedToken s u tok rest hsched hfed hoffer hcan]
  cases u with
  | sp =>
    rw [exec_eq_presentSp (port_decodeToken .sp tok)]
    exact ⟨_, presentSp_accepts hcan', hcan, rfl, rfl, ⟨rfl, rfl⟩, .inl ⟨hfed, hoffer, rfl, rest, hsched⟩⟩
  | su =>
    rw [exec_eq_presentSu (port_decodeToken .su tok)]
    exact ⟨_, presentSu_accepts hcan', hcan, rfl, rfl, ⟨rfl, rfl⟩, .inl ⟨hfed, hoffer, rfl, rest, hsched⟩⟩

/-- A unit with a token on offer that it cannot accept makes a step, and the token waits. -/
theorem unit_step_waits {tok : Token} (hsched : s.schedule = .unit u :: rest) (hwas : (portOf s u).wasReset = true)
    (hfed : fedByPeer s u = false) (hoffer : (portOf s u).offer = some tok) (hcan : canAccept s u = false) :
    step s = .next { s with schedule := rest } := by
  rw [step_of_schedule_cons hsched]
  exact unitMove_waits (by rwa [portOf_schedule]) (by rwa [fedByPeer_schedule]) (by rwa [portOf_schedule])
    (by rwa [canAccept_schedule])

/-- Out of reset and with `pend` empty, only `err` keeps a unit from accepting. -/
theorem Within.errOf_of_not_canAccept (h : Within u n s) (hpend : pendOf s u = []) (hcan : canAccept s u = false) :
    errOf s u = true := by
  simpa [canAccept, h.wasReset, h.rst, hpend] using hcan

/-- After the producer's move a token is on offer, unless none is left. -/
theorem producerMove_left (hfed : fedByPeer s u = false) (hoffer : (portOf (producerMove u s) u).offer = none) :
    streamLeft (producerMove u s) u = [] := by
  cases ho : (portOf s u).offer with
  | none =>
    cases hi : (portOf s u).input with
    | nil =>
      have hidle : producerMove u s = s := by simp [producerMove, hfed, ho, hi]
      simp [hidle, streamLeft, ho, hi]
    | cons tok more =>
      rw [producerMove_offers hfed ho hi, portOf_setPort] at hoffer
      cases hoffer
  | some tok =>
    have hkept := (producerMove_quiet u u s).offer tok ho
    rw [hoffer] at hkept
    cases hkept

/-- The producer's move in a round. -/
theorem Within.producer (h : Within u n s) (hsched : s.schedule = .producer u :: rest) (hpend : pendOf s u = []) :
    ∃ m, step s = .next m ∧ Within u n m ∧ pendOf m u = []
      ∧ ((portOf m u).offer = none → streamLeft m u = []) := by
  have hstep : step s = .next (producerMove u { s with schedule := rest }) := step_of_schedule_cons hsched
  have hquiet := (producerMove_quiet u u { s with schedule := rest }).of_schedule
  refine ⟨_, hstep, h.of_quiet hstep hquiet, ?_, producerMove_left (h.unwired.of_config rfl u)⟩
  rcases hquiet.delivered with ⟨-, hsame⟩ | ⟨tok, -, hcons, -⟩
  · exact hsame.trans hpend
  · rw [hpend] at hcons
    cases hcons

/-- The unit's move in a round: a token is accepted, or none is left, or `err` stops it. -/
theorem Within.unit (h : Within u (n + 1) s) (hsched : s.schedule = .unit u :: rest) (hpend : pendOf s u = [])
    (hready : (portOf s u).offer = none → streamLeft s u = []) :
    ∃ m, step s = .next m ∧ Within u n m ∧ (pendOf m u).length ≤ 2 := by
  have hidle : step s = .next { s with schedule := rest } → (streamLeft s u = [] ∨ errOf s u = true) →
      ∃ m, step s = .next m ∧ Within u n m ∧ (pendOf m u).length ≤ 2 := fun hstep hdone => by
    have hs : Within u n s := ⟨h.unwired, h.wasReset, h.rst, hdone.imp_left fun hnil => by simp [hnil]⟩
    exact ⟨_, hstep, hs.of_quiet hstep (Quiet.refl u s rest), by simp [hpend]⟩
  cases hoffer : (portOf s u).offer with
  | none =>
    obtain ⟨-, -, hstep, -⟩ := otherAgentsMove s u rest
    exact hidle (hstep hsched hoffer) (.inl (hready hoffer))
  | some tok =>
    have hfed := h.unwired u
    cases hcan : canAccept s u with
    | true =>
      obtain ⟨m, hstep, hacc⟩ := unit_step_accepts hsched hfed hoffer hcan
      exact ⟨m, hstep, h.of_accepts hstep hacc, hacc.pend_length⟩
    | false =>
      exact hidle (unit_step_waits hsched h.wasReset hfed hoffer hcan) (.inr (h.errOf_of_not_canAccept hpend hcan))

/-- A consumer's move in a round takes the head of `pend`, if there is one. -/
theorem Within.consumer {j : Nat} (h : Within u n s) (hsched : s.schedule = .consumer u :: rest)
    (hpend : (pendOf s u).length ≤ j + 1) :
    ∃ m, step s = .next m ∧ Within u n m ∧ (pendOf m u).length ≤ j := by
  cases hp : pendOf s u with
  | nil =>
    have hstep : step s = .next { s with schedule := rest } := by
      rw [step_of_schedule_cons hsched]
      exact consumerMove_of_pend_nil (by rw [portOf_schedule, h.wasReset]) (by rw [pendOf_schedule, hp])
    exact ⟨_, hstep, h.of_quiet hstep (Quiet.refl u s rest), by simp [hp]⟩
  | cons tok q =>
    have hwas : (portOf { s with schedule := rest } u).wasReset = true := by rw [portOf_schedule, h.wasReset]
    have hrst : (portOf { s with schedule := rest } u).rst = false := by rw [portOf_schedule, h.rst]
    have hcons : pendOf { s with schedule := rest } u = tok :: q := by rw [pendOf_schedule, hp]
    have hstep : step s = .next (deliverHead u tok q { s with schedule := rest }) := by
      rw [step_of_schedule_cons hsched]
      exact consumerMove_of_pend_cons (h.unwired.of_config rfl _) hwas hrst hcons
    rw [hp, List.length_cons] at hpend
    refine ⟨_, hstep, h.of_quiet hstep (deliverHead_quiet u u hwas hrst hcons).of_schedule, ?_⟩
    simpa [deliverHead] using Nat.le_of_succ_le_succ hpend

/-- The next state has the rest of the schedule. -/
theorem schedule_of_step {e : Event} (hstep : step s = .next m) (hsched : s.schedule = e :: rest) :
    m.schedule = rest := by
  rw [step_schedule hstep, hsched, List.tail_cons]

/-- One fair round accepts a token, if one is left and `err` is 0, and takes all that the unit emitted. -/
theorem Within.round (h : Within u (n + 1) s) (hsched : s.schedule = fairRound u ++ rest) (hpend : pendOf s u = []) :
    ∃ t, core.run 4 s = .next t ∧ t.schedule = rest ∧ Within u n t ∧ pendOf t u = [] := by
  obtain ⟨a, hstep₁, ha, hpendA, hready⟩ := h.producer hsched hpend
  have hschedA := schedule_of_step hstep₁ hsched
  obtain ⟨b, hstep₂, hb, hpendB⟩ := ha.unit hschedA hpendA hready
  have hschedB := schedule_of_step hstep₂ hschedA
  obtain ⟨c, hstep₃, hc, hpendC⟩ := hb.consumer hschedB hpendB
  have hschedC := schedule_of_step hstep₃ hschedB
  obtain ⟨t, hstep₄, ht, hpendT⟩ := hc.consumer hschedC hpendC
  have hrun : core.run 4 s = .next t :=
    run_succ.2 ⟨a, hstep₁, run_succ.2 ⟨b, hstep₂, run_succ.2 ⟨c, hstep₃, run_succ.2 ⟨t, hstep₄, rfl⟩⟩⟩⟩
  exact ⟨t, hrun, schedule_of_step hstep₄ hschedC, ht, List.eq_nil_of_length_eq_zero (Nat.le_zero.1 hpendT)⟩

end

/-- A run that goes on from where another stopped. -/
theorem run_add {l : Nat} {m t : State} (hrest : core.run l m = .next t) :
    ∀ {k : Nat} {s : State}, core.run k s = .next m → core.run (l + k) s = .next t := by
  intro k
  induction k with
  | zero => intro s h; cases h; exact hrest
  | succ k ih =>
    intro s h
    obtain ⟨a, hstep, hrun⟩ := run_succ.1 h
    exact run_succ.2 ⟨a, hstep, ih hrun⟩

/-- `n` fair rounds are enough for `n` tokens. -/
theorem Within.fair_run {u : UnitId} : ∀ {n : Nat} {s : State}, Within u n s → s.schedule = fairSchedule u n →
    pendOf s u = [] → ∃ t, core.run (4 * n) s = .next t ∧ t.schedule = [] ∧ ended t u = true := by
  intro n
  induction n with
  | zero =>
    intro s h hsched hpend
    have hdone : streamLeft s u = [] ∨ errOf s u = true :=
      h.left.imp_left fun hlen => List.eq_nil_of_length_eq_zero (Nat.le_zero.1 hlen)
    exact ⟨s, rfl, hsched, by simpa [ended, hpend] using hdone⟩
  | succ n ih =>
    intro s h hsched hpend
    obtain ⟨m, hround, hschedM, hm, hpendM⟩ := h.round hsched hpend
    obtain ⟨t, hrun, hdone⟩ := ih hm hschedM hpendM
    exact ⟨t, run_add hrun hround, hdone⟩

/-- Settles O56: by induction on the rounds, each of which makes progress on `Within`. -/
theorem fairRunEnds : Obligations.FairRunEnds := by
  intro u n s hsched hsu hsp hwas hrst hpend hlen
  have hunwired : Unwired s := fun v => by cases v <;> assumption
  exact Within.fair_run ⟨hunwired, hwas, hrst, .inl hlen⟩ hsched hpend

/-! ### A run that has ended with `err` 0 -/

theorem spHistory_of_afterReset {s : State} (h : s.sp = Packer.afterReset) :
    spHistory s = ⟨0#3, 0#8, false, s.spPort.output⟩ := by
  simp [spHistory, emittedAll, portOf, pendOf, h, Packer.afterReset]

theorem suHistory_of_afterReset {s : State} (h : s.su = Unpacker.afterReset) :
    suHistory s = ⟨0#3, 0#8, s.suPort.output⟩ := by
  simp [suHistory, emittedAll, portOf, pendOf, h, Unpacker.afterReset]

theorem closedStream_cases {is : List Instr} (h : closedStream is = true) :
    is = [] ∨ ∃ front i, is = front ++ [i] ∧ i.isEnd = true := by
  rcases List.eq_nil_or_concat is with rfl | ⟨front, i, rfl⟩
  · exact .inl rfl
  · exact .inr ⟨front, i, List.concat_eq_append, by simpa [closedStream] using h⟩

theorem encodeToken_isEnd (i : Instr) : (encodeToken i).isEnd = i.isEnd := by cases i <;> rfl

/-- An empty stream, or one closed by END, leaves SP's block registers at their reset values (40 R91). -/
theorem spFeed_closed (policy : RangePolicy) {is : List Instr} (hclosed : closedStream is = true) (er : Bool)
    (q : List Token) :
    (spFeed policy ⟨0#3, 0#8, er, q⟩ (tokensOf is)).phase = 0#3
      ∧ (spFeed policy ⟨0#3, 0#8, er, q⟩ (tokensOf is)).prev = 0#8 := by
  rcases closedStream_cases hclosed with rfl | ⟨front, i, rfl, hend⟩
  · exact ⟨rfl, rfl⟩
  · have hlast : decodeSp (encodeToken i) = .end7 (encodeToken i).data :=
      decodeSp_isEnd ((encodeToken_isEnd i).trans hend)
    have hfinish : ∀ p, spFeed policy p (tokensOf [i]) = spFinish p := fun p => by
      simp [tokensOf, spFeed, hlast, spEffect]
    rw [tokensOf_append, spFeed_append, hfinish]
    exact ⟨rfl, rfl⟩

/-- An empty stream, or one closed by END, leaves SU's block registers at their reset values (41 R112). -/
theorem suFeed_closed {is : List Instr} (hclosed : closedStream is = true) (q : List Token) :
    (suFeed ⟨0#3, 0#8, q⟩ (tokensOf is)).phase = 0#3 ∧ (suFeed ⟨0#3, 0#8, q⟩ (tokensOf is)).prev = 0#8 := by
  rcases closedStream_cases hclosed with rfl | ⟨front, i, rfl, hend⟩
  · exact ⟨rfl, rfl⟩
  · have hlast : decodeSu (encodeToken i) = .end8 (encodeToken i).data :=
      decodeSu_isEnd ((encodeToken_isEnd i).trans hend)
    have hfinish : ∀ p, suFeed p (tokensOf [i]) = suFinish p := fun p => by
      simp [tokensOf, suFeed, hlast, suEffect]
    rw [tokensOf_append, suFeed_append, hfinish]
    exact ⟨rfl, rfl⟩

/-- A run of SP that has ended with `err` 0 has accepted every token (70 R177). -/
theorem sp_ended_history {k : Nat} {s t : State} (hn : noReset .sp s = true) (hf : s.config.suToSp = false)
    (h : core.run k s = .next t) (hended : ended t .sp = true) (hclear : t.sp.err = false) :
    t.sp.pend = []
      ∧ ({ t.sp with pend := t.spPort.output } : Packer)
        = spFeed s.config.rangePolicy (spHistory s) (streamLeft s .sp) := by
  obtain ⟨acc, hleft, hhist, -⟩ := sp_trace hn hf h
  obtain ⟨hpend, hleft'⟩ : t.sp.pend = [] ∧ streamLeft t .sp = [] := by
    simpa [ended, pendOf, errOf, hclear] using hended
  refine ⟨hpend, ?_⟩
  rw [hleft, hleft', List.append_nil, ← hhist]
  simp [spHistory, emittedAll, portOf, pendOf, hpend]

/-- Settles O57: the whole stream was fed to the reset state, and END leaves `phase` and `prev` at 0. -/
theorem finalRunsAreAtReset : Obligations.FinalRunsAreAtReset := by
  intro k s t is u hunwired _ hreset hnoReset _ hstream hrun hended hclear hclosed
  cases u with
  | sp =>
    have hstart := spHistory_of_afterReset (beq_iff_eq.1 hreset)
    obtain ⟨hpend, hhist⟩ := sp_ended_history hnoReset hunwired hrun hended hclear
    rw [hstart, hstream] at hhist
    obtain ⟨hphase, hprev⟩ := spFeed_closed s.config.rangePolicy hclosed false s.spPort.output
    rw [← hhist] at hphase hprev
    have herr : t.sp.err = false := hclear
    refine beq_iff_eq.2 ?_
    rw [Packer.afterReset, ← hphase, ← hprev, ← herr, ← hpend]
  | su =>
    have hstart := suHistory_of_afterReset (beq_iff_eq.1 hreset)
    obtain ⟨hpend, hhist⟩ := su_ended_history hnoReset hunwired hrun hended
    rw [hstart, hstream] at hhist
    obtain ⟨hphase, hprev⟩ := suFeed_closed hclosed s.suPort.output
    rw [← hhist] at hphase hprev
    refine beq_iff_eq.2 ?_
    rw [Unpacker.afterReset, ← hphase, ← hprev, ← hpend]

/-! ### A sequence still open -/

/-- Feeding SP adds to what it has emitted. -/
theorem spFeed_pend_prefix (policy : RangePolicy) (ts : List Token) (p : Packer) :
    p.pend <+: (spFeed policy p ts).pend := by
  have hpend := congrArg Packer.pend (spFeed_prepend policy ts p.pend { p with pend := [] })
  rw [List.append_nil] at hpend
  exact ⟨_, hpend.symm⟩

/-- Feeding SU adds to what it has emitted. -/
theorem suFeed_pend_prefix (ts : List Token) (p : Unpacker) : p.pend <+: (suFeed p ts).pend := by
  have hpend := congrArg Unpacker.pend (suFeed_prepend ts p.pend { p with pend := [] })
  rw [List.append_nil] at hpend
  exact ⟨_, hpend.symm⟩

/-- END adds at least itself to what SP has emitted (40 R90). -/
theorem spFinish_pend_grows (p : Packer) : ∃ x more, (spFinish p).pend = p.pend ++ x :: more := by
  rw [spFinish_eq]
  split_ifs <;> exact ⟨_, _, rfl⟩

/-- END adds at least itself to what SU has emitted (41 R110, R111). -/
theorem suFinish_pend_grows (p : Unpacker) : ∃ x more, (suFinish p).pend = p.pend ++ x :: more := by
  by_cases h7 : p.phase = 7#3
  · rw [suFinish_of_phase_eq_seven h7]
    split_ifs <;> exact ⟨_, _, rfl⟩
  · rw [suFinish_of_phase_ne_seven h7]
    exact ⟨_, _, rfl⟩

/-- What was emitted after `start` is a first part of `closed`, and not all of it, if more was to come. -/
theorem exists_strict_prefix {start emitted before closed more : List Token} {x : Token} (hstart : start <+: emitted)
    (hopen : emitted <+: before) (hclosed : start ++ closed = before ++ x :: more) :
    ∃ out, emitted = start ++ out ∧ out <+: closed ∧ out ≠ closed := by
  obtain ⟨out, rfl⟩ := hstart
  obtain ⟨rest, rfl⟩ := hopen
  simp only [List.append_assoc, List.append_cancel_left_eq] at hclosed
  refine ⟨out, rfl, ⟨_, hclosed.symm⟩, fun hall => ?_⟩
  rw [hall] at hclosed
  simp at hclosed

/-- Settles O55: what the unit has accepted is a first part of the data tokens; feeding it the rest of them and END gives
the finished output, to which END adds. -/
theorem openSequenceGivesPrefix : Obligations.OpenSequenceGivesPrefix := by
  intro k s t xs hrun
  constructor
  · intro hunwired _ hreset hnoReset hseptets hstream
    obtain ⟨acc, hleft, hhist, -⟩ := sp_trace hnoReset hunwired hrun
    have hstart := spHistory_of_afterReset hreset
    have hdata := spFeed_data s.config.rangePolicy xs (fun _ => hseptets) (spHistory s)
    have hclosed := spFinish_spData xs false s.spPort.output
    rw [map_underPolicy_of_allSeptets _ hseptets, ← hstream, hleft, spFeed_append, ← hhist] at hdata
    rw [← hstart, ← hdata] at hclosed
    have hbegun := spFeed_pend_prefix s.config.rangePolicy acc (spHistory s)
    rw [← hhist, hstart] at hbegun
    obtain ⟨x, more, hgrows⟩ := spFinish_pend_grows (spFeed s.config.rangePolicy (spHistory t) (streamLeft t .sp))
    rw [hclosed] at hgrows
    exact exists_strict_prefix hbegun (spFeed_pend_prefix _ _ (spHistory t)) hgrows
  · intro hunwired _ hreset hnoReset hstream
    obtain ⟨acc, hleft, hhist⟩ := su_trace hnoReset hunwired hrun
    have hstart := suHistory_of_afterReset hreset
    have hdata := suFeed_data xs (suHistory s)
    have hclosed := suFinish_suData xs s.suPort.output
    rw [← hstream, hleft, suFeed_append, ← hhist] at hdata
    rw [← hstart, ← hdata] at hclosed
    have hbegun := suFeed_pend_prefix acc (suHistory s)
    rw [← hhist, hstart] at hbegun
    obtain ⟨x, more, hgrows⟩ := suFinish_pend_grows (suFeed (suHistory t) (streamLeft t .su))
    rw [hclosed] at hgrows
    exact exists_strict_prefix hbegun (suFeed_pend_prefix _ (suHistory t)) hgrows

end Sys2Proof.Machine
end
